-- ==== Sys2Proof/Word.lean ====
section
/-! DEFINITION. The value types of the MD4 core: bytes, words, microwords, and a group of four words. -/

namespace Sys2Proof

/-- `u8` of spec/00_scope.md R12. -/
abbrev Byte := BitVec 8

/-- `u32` of R12: all arithmetic on it wraps modulo 2^32 (R14). -/
abbrev Word := BitVec 32

/-- A UW16 word of the step ROM (R70). -/
abbrev Microword := BitVec 16

/-- A CMD32 word (R70). -/
abbrev CommandWord := BitVec 32

/-- Four 32-bit registers under the source's names: `H` is A, B, C, D (R21) and `V` is a, b, c, d (R24).
Register number 0 is `a`, 1 is `b`, 2 is `c`, 3 is `d`. -/
structure Quad where
  a : Word
  b : Word
  c : Word
  d : Word
deriving DecidableEq, Repr

end Sys2Proof
end

