-- ==== Sys2Proof/Config.lean ====
section
/-! DEFINITION. What the spec leaves OPEN for an implementation (spec/92_eei_decisions.md, opening): two parameters that no rule
reads. They have no value here, so nothing can be proved from one. -/

namespace Sys2Proof

/-- `MD4C_BASE` (R59, D18): where a platform maps CMD, STATUS and DIGEST. The platform's choice. -/
opaque Config.md4cBase : Nat

/-- One less than `CYCLES_PER_TRANSITION`: the free part of a parameter the spec bounds from below. -/
opaque Config.extraCyclesPerTransition : Nat

/-- `CYCLES_PER_TRANSITION` ≥ 1 (R290, D21). -/
def Config.cyclesPerTransition : Nat := Config.extraCyclesPerTransition + 1

end Sys2Proof
end

