-- ==== Sys2Proof/Syntax.lean ====
section
/-! DEFINITION. The instructions of the opcode table, the fields they are made of, and the names of the ways a word is not one. -/

namespace Sys2Proof

/-- SLOT, the working register a step recomputes: 0 = a, 1 = b, 2 = c, 3 = d (R72). -/
inductive Slot where
  | a
  | b
  | c
  | d
deriving DecidableEq, Repr

/-- RND, the round a step belongs to: 0, 1, 2 of R72 are the rounds 1, 2, 3. RND = 3 is reserved and has no constructor. -/
inductive Round where
  | r1
  | r2
  | r3
deriving DecidableEq, Repr

/-- One constructor for each row of spec/opcode_table.json: three host commands (CMD32, R73) and three steps (UW16, R76). -/
inductive Instr where
  /-- INIT (R224). -/
  | init
  /-- ABSORB of the message byte DATA (R226). -/
  | absorb (data : Byte)
  /-- FINALIZE (R228). -/
  | finalize
  /-- STEP_F with SLOT, K and S (R150). -/
  | stepF (slot : Slot) (k : BitVec 4) (n : BitVec 5)
  /-- STEP_G (R151). -/
  | stepG (slot : Slot) (k : BitVec 4) (n : BitVec 5)
  /-- STEP_H (R152). -/
  | stepH (slot : Slot) (k : BitVec 4) (n : BitVec 5)
deriving DecidableEq, Repr

/-- The protocol-error causes of R261, codes 1 to 4. The first two are found by decoding (R75), the last two by the phase
checks of R222. -/
inductive ProtocolCode where
  /-- Code 1, ILLEGAL_OPCODE: OPC is none of 1, 2, 3. -/
  | illegalOpcode
  /-- Code 2, RESERVED_FIELD: RSVD ≠ 0, or DATA ≠ 0 in INIT or FINALIZE. -/
  | reservedField
  /-- Code 3, ABSORB_AFTER_DONE. -/
  | absorbAfterDone
  /-- Code 4, FINALIZE_AFTER_DONE. -/
  | finalizeAfterDone
deriving DecidableEq, Repr

/-- Why a UW16 word is reserved (R76). -/
inductive UwReserved where
  /-- RND = 3. -/
  | round
  /-- Bits 7:5 are not 0. -/
  | bits
  /-- S = 0. -/
  | rotate
deriving DecidableEq, Repr

/-- An encoded instruction, by the interface it arrives on (R70: a decoder always knows the length from the interface). -/
inductive Encoded where
  | cmd32 (w : CommandWord)
  | uw16 (u : Microword)
deriving DecidableEq, Repr

end Sys2Proof
end

