-- ==== Sys2Proof/WellFormed.lean ====
section
/-! DEFINITION. Which terms of `Instr` are instructions of the spec. -/

namespace Sys2Proof

/-- A step's rotate amount is 1..31; S = 0 is reserved (R72, R76). The types bound every other field, and a host command has
no further check. -/
def Instr.wellFormed : Instr → Bool
  | .init => true
  | .absorb _ => true
  | .finalize => true
  | .stepF _ _ n => n != 0#5
  | .stepG _ _ n => n != 0#5
  | .stepH _ _ n => n != 0#5

end Sys2Proof
end

