-- ==== Sys2Proof/Decode.lean ====
section
/-! DEFINITION. The decoders of spec/30_encoding.md (CMD32: R71, R73, R75; UW16: R72, R74, R76), the opcode table as rows, and the
encoder written from the same field tables. -/

namespace Sys2Proof

/-! ## Field values -/

/-- SLOT bits 13:12 as a register (R72). -/
def Slot.ofBits (x : BitVec 2) : Slot :=
  if x = 0#2 then .a else if x = 1#2 then .b else if x = 2#2 then .c else .d

/-- A register as SLOT bits (R72). -/
def Slot.bits : Slot → BitVec 2
  | .a => 0#2
  | .b => 1#2
  | .c => 2#2
  | .d => 3#2

/-- A round as RND bits (R72). -/
def Round.bits : Round → BitVec 2
  | .r1 => 0#2
  | .r2 => 1#2
  | .r3 => 2#2

/-- The step instruction of a round: RND = 0, 1, 2 is STEP_F, STEP_G, STEP_H (R76). -/
def Round.stepInstr (r : Round) (slot : Slot) (k : BitVec 4) (n : BitVec 5) : Instr :=
  match r with
  | .r1 => .stepF slot k n
  | .r2 => .stepG slot k n
  | .r3 => .stepH slot k n

/-- The ECODE value of a protocol error (R261). -/
def ProtocolCode.bits : ProtocolCode → BitVec 4
  | .illegalOpcode => 1#4
  | .reservedField => 2#4
  | .absorbAfterDone => 3#4
  | .finalizeAfterDone => 4#4

/-! ## CMD32 -/

/-- OPC, bits 31:28 (R71). -/
def cmdOpc (w : CommandWord) : BitVec 4 := w.extractLsb' 28 4

/-- RSVD, bits 27:8 (R71). -/
def cmdRsvd (w : CommandWord) : BitVec 20 := w.extractLsb' 8 20

/-- DATA, bits 7:0 (R71). -/
def cmdData (w : CommandWord) : Byte := w.extractLsb' 0 8

/-- `decode_cmd`, in the order of R75: the opcode, then RSVD, then the operand field of INIT and FINALIZE. -/
def decodeCmd (w : CommandWord) : Except ProtocolCode Instr :=
  if cmdOpc w ≠ 1#4 ∧ cmdOpc w ≠ 2#4 ∧ cmdOpc w ≠ 3#4 then .error .illegalOpcode
  else if cmdRsvd w ≠ 0#20 then .error .reservedField
  else if (cmdOpc w = 1#4 ∨ cmdOpc w = 3#4) ∧ cmdData w ≠ 0#8 then .error .reservedField
  else if cmdOpc w = 1#4 then .ok .init
  else if cmdOpc w = 2#4 then .ok (.absorb (cmdData w))
  else .ok .finalize

/-! ## UW16 -/

/-- RND, bits 15:14 (R72). -/
def uwRnd (u : Microword) : BitVec 2 := u.extractLsb' 14 2

/-- SLOT, bits 13:12 (R72). -/
def uwSlot (u : Microword) : BitVec 2 := u.extractLsb' 12 2

/-- K, bits 11:8 (R72). -/
def uwK (u : Microword) : BitVec 4 := u.extractLsb' 8 4

/-- RSVD, bits 7:5 (R72). -/
def uwRsvd (u : Microword) : BitVec 3 := u.extractLsb' 5 3

/-- S, bits 4:0 (R72). -/
def uwS (u : Microword) : BitVec 5 := u.extractLsb' 0 5

/-- `decode_uw` (R76): RND = 3, bits 7:5 not 0 and S = 0 are reserved. -/
def decodeUw (u : Microword) : Except UwReserved Instr :=
  if uwRnd u = 3#2 then .error .round
  else if uwRsvd u ≠ 0#3 then .error .bits
  else if uwS u = 0#5 then .error .rotate
  else if uwRnd u = 0#2 then .ok (.stepF (Slot.ofBits (uwSlot u)) (uwK u) (uwS u))
  else if uwRnd u = 1#2 then .ok (.stepG (Slot.ofBits (uwSlot u)) (uwK u) (uwS u))
  else .ok (.stepH (Slot.ofBits (uwSlot u)) (uwK u) (uwS u))

/-! ## Both interfaces -/

/-- The decoder of the whole machine: the interface says the format (R70). -/
def decode : Encoded → Option Instr
  | .cmd32 w => (decodeCmd w).toOption
  | .uw16 u => (decodeUw u).toOption

/-- The instruction read from a table row's bits: a row of at most 16 bits is a UW16 word, a row of 17 to 32 bits a CMD32 word
(R70), and no instruction is longer. -/
def decodeTableWord (nbits w : Nat) : Option Instr :=
  if nbits ≤ 16 then decode (.uw16 (BitVec.ofNat 16 w))
  else if nbits ≤ 32 then decode (.cmd32 (BitVec.ofNat 32 w))
  else none

/-! ## The encoder -/

/-- A CMD32 word from its fields (R71). -/
def encodeCmd (opc : BitVec 4) (data : Byte) : CommandWord := (opc ++ 0#20) ++ data

/-- A UW16 word from its fields, RSVD = 0 (R72, R82). -/
def encodeUw (r : Round) (slot : Slot) (k : BitVec 4) (n : BitVec 5) : Microword :=
  (((r.bits ++ slot.bits) ++ k) ++ 0#3) ++ n

/-- The word of an instruction, on the interface it belongs to (R73, R75, R76, R80, R82). -/
def encode : Instr → Encoded
  | .init => .cmd32 (encodeCmd 1#4 0#8)
  | .absorb data => .cmd32 (encodeCmd 2#4 data)
  | .finalize => .cmd32 (encodeCmd 3#4 0#8)
  | .stepF slot k n => .uw16 (encodeUw .r1 slot k n)
  | .stepG slot k n => .uw16 (encodeUw .r2 slot k n)
  | .stepH slot k n => .uw16 (encodeUw .r3 slot k n)

/-! ## The opcode table as rows -/

/-- The row of an instruction in the opcode table: width in bits, mask and match (R75, R76), as numbers. -/
def opcodeRow : Instr → Nat × Nat × Nat
  | .init => (32, 0xFFFFFFFF, 0x10000000)
  | .absorb _ => (32, 0xFFFFFF00, 0x20000000)
  | .finalize => (32, 0xFFFFFFFF, 0x30000000)
  | .stepF _ _ _ => (16, 0xC0E0, 0x0000)
  | .stepG _ _ _ => (16, 0xC0E0, 0x4000)
  | .stepH _ _ _ => (16, 0xC0E0, 0x8000)

/-- The width and the bits of an encoded instruction. -/
def Encoded.widthBits : Encoded → Nat × Nat
  | .cmd32 w => (32, w.toNat)
  | .uw16 u => (16, u.toNat)

/-- A word lies in a row when it has the row's width and its masked bits are the row's match. -/
def Encoded.inRow (e : Encoded) (row : Nat × Nat × Nat) : Prop :=
  e.widthBits.1 = row.1 ∧ e.widthBits.2 &&& row.2.1 = row.2.2

end Sys2Proof
end

