-- ==== Sys2Proof/Machine/Constants.lean ====
section
/-! DEFINITION. The fixed contents of the core (R42): the IV, the round constants, the schedule and the 48-word step ROM. -/

namespace Sys2Proof.Machine

/-- The IV, loaded into H at INIT and at reset (R22). -/
def iv : Quad := { a := 0x67452301#32, b := 0xEFCDAB89#32, c := 0x98BADCFE#32, d := 0x10325476#32 }

/-- KR, the additive constant of a round (R148). -/
def roundConstant : Round → Word
  | .r1 => 0x00000000#32
  | .r2 => 0x5A827999#32
  | .r3 => 0x6ED9EBA1#32

/-- SLOTSEQ = [0, 3, 2, 1] at step i mod 4: the recomputed register goes a, d, c, b (R170). -/
def slotOfStep (i : Nat) : Slot :=
  match i % 4 with
  | 0 => .a
  | 1 => .d
  | 2 => .c
  | _ => .b

/-- KORD, the word order of a round (R170, R171). -/
def wordOrder : Round → List Nat
  | .r1 => [0, 1, 2, 3, 4, 5, 6, 7, 8, 9, 10, 11, 12, 13, 14, 15]
  | .r2 => [0, 4, 8, 12, 1, 5, 9, 13, 2, 6, 10, 14, 3, 7, 11, 15]
  | .r3 => [0, 8, 4, 12, 2, 10, 6, 14, 1, 9, 5, 13, 3, 11, 7, 15]

/-- SROT, the rotate amounts of a round, repeating every four steps (R170, R171). -/
def rotateCycle : Round → List Nat
  | .r1 => [3, 7, 11, 19]
  | .r2 => [3, 5, 9, 13]
  | .r3 => [3, 9, 11, 15]

/-- The word index k of step i of a round. -/
def wordIndexOfStep (r : Round) (i : Nat) : Nat := (wordOrder r).getD i 0

/-- The rotate amount s of step i of a round. -/
def rotateOfStep (r : Round) (i : Nat) : Nat := (rotateCycle r).getD (i % 4) 0

/-- `ROM[16r + i] = (r << 14) | (SLOTSEQ[i mod 4] << 12) | (KORD[r][i] << 8) | SROT[r][i mod 4]` (R171). -/
def romWord (r : Round) (i : Nat) : Microword :=
  (r.bits.setWidth 16 <<< 14) ||| ((slotOfStep i).bits.setWidth 16 <<< 12)
    ||| (BitVec.ofNat 16 (wordIndexOfStep r i) <<< 8) ||| BitVec.ofNat 16 (rotateOfStep r i)

/-- The ROM's words in order j = 16r + i. -/
def romWords : List Microword :=
  (List.range 16).map (romWord .r1) ++ (List.range 16).map (romWord .r2) ++ (List.range 16).map (romWord .r3)

/-- The step ROM (R171): 48 words of 16 bits. -/
def stepRom : Vector Microword 48 := ⟨⟨romWords⟩, by simp [romWords]⟩

end Sys2Proof.Machine
end

