-- ==== Sys2Proof/Machine/State.lean ====
section
/-! DEFINITION. The state of the core and of its host, as plain data, and the state after reset (spec/10_state.md). -/

namespace Sys2Proof.Machine

/-- `seq`, the micro-sequencer state and the core's only program counter: the 53 legal values of R31. The encodings 0x05 to
0x0F, which the spec says are never entered, have no constructor. -/
inductive Seq where
  | idle
  | loadv
  | feed
  | pad2
  | out
  | step (i : Fin 48)
deriving DecidableEq, Repr

/-- CONT, what follows the next FEED: NONE, PAD2 or OUT (R30). The value 3 is never written and has no constructor. -/
inductive Cont where
  | none
  | pad2
  | out
deriving DecidableEq, Repr

/-- An entry of the model's fault log (R262, R264). -/
inductive FaultEntry where
  /-- A protocol error was raised (R262). -/
  | protocolError (code : ProtocolCode)
  /-- A command was refused while ERR = 1 (R264). -/
  | refused
deriving DecidableEq, Repr

/-- The host's moves (R220), and `yield`: the host makes no move and the core takes its transition. -/
inductive HostMove where
  /-- R220 (a): present a command word on CMD. -/
  | present (w : CommandWord)
  /-- R220 (b): read STATUS. -/
  | readStatus
  /-- R220 (c): read DIGEST[i]. -/
  | readDigest (i : Fin 16)
  /-- R220 (d): assert reset. -/
  | assertReset
  /-- The core moves. -/
  | yield
deriving DecidableEq, Repr

/-- What a read returned to the host. -/
inductive HostRead where
  | status (value : BitVec 32)
  | digest (i : Fin 16) (byte : Byte)
deriving DecidableEq, Repr

/-- The block buffer: (address, byte) pairs at strictly rising addresses below 64. An unlisted address holds no value (R44). -/
abbrev Memory := List Host.Cell

/-- The reasons a step ends in a model fault. Both are safe: nothing is proved of what the hardware would go on to do. -/
inductive Fault where
  /-- Raised by a host read of DIGEST while DONE = 0 (R263, R287). Safe. -/
  | digestReadWhileNotDone
  /-- Raised by the read of a BUF byte that holds no value (R44, I6). Safe; no run reaches it (R246). -/
  | bufByteHoldsNoValue
deriving DecidableEq, Repr

/-- The reasons a step is refused. All are safe: the model gives no next state. -/
inductive Refusal where
  /-- Raised by an arm of `exec` whose instruction has no meaning yet. Safe. No arm raises it now. -/
  | notModelled (mnemonic : String)
  /-- Raised by the fetch of a reserved microword (R76, I2). Safe; no word of the ROM is reserved. -/
  | reservedMicroword (why : UwReserved)
  /-- Raised by the rotator for an amount outside 1..31 (R144, I1). Safe; no microword reaches it. -/
  | rotateAmountUndefined
  /-- Raised by MemRead and MemWrite for a use outside BUF[0..63] (R51). Safe; no rule forms such an index. -/
  | bufIndexOutOfRange
deriving DecidableEq, Repr

/-- Everything the spec gives the core (R44's table, the step ROM of R50, the port CMD of R38, the fault log of R262) and the
host as plain data. -/
structure State where
  /-- H[0..3], the chaining state (R21). -/
  h : Quad
  /-- V[0..3], the working state (R24). -/
  v : Quad
  /-- BUF[0..63], the block buffer (R26). -/
  buf : Memory
  /-- BUFCNT (R28). -/
  bufcnt : BitVec 6
  /-- LEN, the message's bit length modulo 2^64 (R29). -/
  len : BitVec 64
  /-- CONT (R30). -/
  cont : Cont
  /-- seq (R31). -/
  seq : Seq
  /-- DONE (R33). -/
  done : Bool
  /-- ERR (R34). -/
  err : Bool
  /-- ECODE (R35). -/
  ecode : BitVec 4
  /-- DIGEST[0..15]; `none` is the spec's "no value", which INIT writes (R39, R224). -/
  digest : Option (Vector Byte 16)
  /-- The step ROM (R50, R171). -/
  rom : Vector Microword 48
  /-- CMD: the word the host presents and the core has not taken (R38, R220 a). -/
  cmd : Option CommandWord
  /-- The model's fault log, oldest entry first (R262, R264). -/
  faultLog : List FaultEntry
  /-- The host's moves to come (the model's own field). -/
  host : List HostMove
  /-- What the host has read, oldest first (the model's own field). -/
  reads : List HostRead
deriving DecidableEq, Repr

/-- A step's outcome, and the outcome of a part of one. -/
abbrev Result (α : Type) := Host.Outcome α Fault Refusal

/-- The machine right after reset: the table of R44. V is a DESIGN CHOICE (log entry 1); BUF and DIGEST hold no value; no
command is presented and no host move is pending. -/
def State.reset : State where
  h := iv
  v := { a := 0#32, b := 0#32, c := 0#32, d := 0#32 }
  buf := []
  bufcnt := 0#6
  len := 0#64
  cont := .none
  seq := .idle
  done := false
  err := false
  ecode := 0#4
  digest := none
  rom := stepRom
  cmd := none
  faultLog := []
  host := []
  reads := []

end Sys2Proof.Machine
end

