-- ==== Sys2Proof/Machine/Ops.lean ====
section
/-! DEFINITION. The named operations over the block buffer, the sequencing of partial outcomes, and the protocol-error action with
the way out of it. -/

namespace Sys2Proof.Machine

/-- Go on with a part's value, or stop as it stopped. -/
def andThen {α β : Type} (o : Result α) (f : α → Result β) : Result β :=
  match o with
  | .next x => f x
  | .fault r => .fault r
  | .refused r => .refused r

/-! ## The block buffer (R50, R51) -/

/-- BUF has 64 bytes (R26). -/
def bufSize : Nat := 64

/-- One byte of the buffer; `none` where it holds no value. -/
def Memory.read : Memory → Nat → Option Byte
  | [], _ => none
  | (a, b) :: m, j => if a = j then some b else Memory.read m j

/-- Write one byte, keeping addresses strictly rising. "No value" is never written, so no entry is ever removed. -/
def Memory.write : Memory → Nat → Byte → Memory
  | [], j, x => [(j, x)]
  | (a, b) :: m, j, x =>
    if j < a then (j, x) :: (a, b) :: m
    else if j = a then (j, x) :: m
    else (a, b) :: Memory.write m j x

/-- Addresses strictly rise from `lo` and stay below the buffer's size. -/
def Memory.wfFrom (lo : Nat) : Memory → Bool
  | [] => true
  | (a, _) :: m => decide (lo ≤ a) && decide (a < bufSize) && Memory.wfFrom (a + 1) m

/-- The canonical form: strictly rising addresses, all below 64. No entry can equal what an unlisted address reads as, since
that is no value. -/
def Memory.wf (m : Memory) : Bool := Memory.wfFrom 0 m

/-- The n bytes from j on, if each of them holds a value. -/
def Memory.readBytes (m : Memory) (j : Nat) : Nat → Option (List Byte)
  | 0 => some []
  | n + 1 =>
    match Memory.read m j, Memory.readBytes m (j + 1) n with
    | some b, some bs => some (b :: bs)
    | _, _ => none

/-- The bytes at j, j+1, ... written in turn. -/
def Memory.writeBytes (m : Memory) (j : Nat) : List Byte → Memory
  | [] => m
  | b :: bs => Memory.writeBytes (Memory.write m j b) (j + 1) bs

/-- `MemRead(j, n)` (R51): refused outside BUF, a fault where a byte holds no value (I6). -/
def memRead (m : Memory) (j n : Nat) : Result (List Byte) :=
  if j + n ≤ bufSize then
    match Memory.readBytes m j n with
    | some bs => .next bs
    | none => .fault .bufByteHoldsNoValue
  else .refused .bufIndexOutOfRange

/-- `MemWrite(j, n, v)` with n = the length of v (R51): refused outside BUF. -/
def memWrite (m : Memory) (j : Nat) (v : List Byte) : Result Memory :=
  if j + v.length ≤ bufSize then .next (Memory.writeBytes m j v)
  else .refused .bufIndexOutOfRange

/-- Every byte of BUF holds a value. -/
def Memory.full (m : Memory) : Bool := (List.range bufSize).all fun j => (Memory.read m j).isSome

/-- The buffer with a zero in each byte that held no value (used by `withFetchWord` alone, log entry 8). -/
def Memory.fillUnwritten (m : Memory) : Memory :=
  (List.range bufSize).map fun j => (j, (Memory.read m j).getD 0#8)

/-! ## Taking a protocol error, and the way out (R262, R264, R267) -/

/-- `raise ProtocolError(code)` (R262): ERR and ECODE, and the model's log. Nothing else changes: no state is saved, no mode
switched, no vector taken (R266). It is raised only while ERR = 0 (R222). -/
def raiseProtocolError (code : ProtocolCode) (s : State) : State :=
  { s with err := true, ecode := code.bits, faultLog := s.faultLog ++ [.protocolError code] }

/-- A command refused while ERR = 1: no hardware state changes, the model's log gets an entry (R264). -/
def refuseCommand (s : State) : State :=
  { s with faultLog := s.faultLog ++ [.refused] }

/-- The way out of the error lock, part of INIT and of reset (R267): ERR and ECODE are cleared. The log keeps its entries. -/
def clearProtocolError (s : State) : State :=
  { s with err := false, ecode := 0#4 }

/-! ## The command port (R38) -/

/-- The core takes the presented word: CMD holds nothing after it. -/
def takeCommand (s : State) : State := { s with cmd := none }

end Sys2Proof.Machine
end

