-- ==== Sys2Proof/Machine/Operands.lean ====
section
/-! DEFINITION. The operand forms and the combinational units: register selection, the byte-order converters of
spec/41_word_codec.md, the mixers, rotator and adder of spec/42_step_engine.md. -/

namespace Sys2Proof.Machine

/-! ## Register selection (R149) -/

/-- Register (t + 1) mod 4 (R74, R149). -/
def nextSlot : Slot → Slot
  | .a => .b
  | .b => .c
  | .c => .d
  | .d => .a

/-- `V[t]`. -/
def readSlot (q : Quad) : Slot → Word
  | .a => q.a
  | .b => q.b
  | .c => q.c
  | .d => q.d

/-- `V[t] <- x`. -/
def writeSlot (q : Quad) (t : Slot) (x : Word) : Quad :=
  match t with
  | .a => { q with a := x }
  | .b => { q with b := x }
  | .c => { q with c := x }
  | .d => { q with d := x }

/-- Component-wise addition modulo 2^32, the feed-forward (R179). -/
def addQuad (p q : Quad) : Quad :=
  { a := p.a + q.a, b := p.b + q.b, c := p.c + q.c, d := p.d + q.d }

/-! ## Byte order (R120 to R123) -/

/-- `le32(b0, b1, b2, b3)`: b0 is the least significant byte (R120). -/
def le32 (b0 b1 b2 b3 : Byte) : Word :=
  b0.setWidth 32 ||| (b1.setWidth 32 <<< 8) ||| (b2.setWidth 32 <<< 16) ||| (b3.setWidth 32 <<< 24)

/-- `le32` of the first four bytes of a sequence. -/
def le32OfBytes (bs : List Byte) : Word := le32 (bs.getD 0 0#8) (bs.getD 1 0#8) (bs.getD 2 0#8) (bs.getD 3 0#8)

/-- `le_bytes32(w)`: least significant byte first (R122). -/
def leBytes32 (w : Word) : List Byte :=
  [w.extractLsb' 0 8, w.extractLsb' 8 8, w.extractLsb' 16 8, w.extractLsb' 24 8]

/-- `le_bytes64(v)`: byte i is v[8i+7:8i] (R123). -/
def leBytes64 (v : BitVec 64) : List Byte :=
  [v.extractLsb' 0 8, v.extractLsb' 8 8, v.extractLsb' 16 8, v.extractLsb' 24 8,
   v.extractLsb' 32 8, v.extractLsb' 40 8, v.extractLsb' 48 8, v.extractLsb' 56 8]

/-- `zeros(k)` (R12). -/
def zeros (k : Nat) : List Byte := List.replicate k 0#8

/-- `X[k]`, a view of BUF evaluated afresh at each use (R27, R121). -/
def blockWord (m : Memory) (k : BitVec 4) : Result Word :=
  andThen (memRead m (4 * k.toNat) 4) fun bs => .next (le32OfBytes bs)

/-! ## The step engine's units (R140 to R148) -/

/-- The f mixer (R140). -/
def mixF (x y z : Word) : Word := (x &&& y) ||| (~~~x &&& z)

/-- The g mixer (R141). -/
def mixG (x y z : Word) : Word := (x &&& y) ||| (x &&& z) ||| (y &&& z)

/-- The h mixer (R142). -/
def mixH (x y z : Word) : Word := x ^^^ y ^^^ z

/-- RND selects the mixer (R147). -/
def mixer : Round → Word → Word → Word → Word
  | .r1 => mixF
  | .r2 => mixG
  | .r3 => mixH

/-- The rotator's data path for 1 ≤ n ≤ 31: `(x << n) | (x >> (32 - n))` (R144). -/
def rotlBits (x : Word) (n : Nat) : Word := (x <<< n) ||| (x >>> (32 - n))

/-- `rotl(x, n)`, defined for 1 ≤ n ≤ 31 only (R144); no value is invented for another amount (D16). -/
def rotl (x : Word) (n : Nat) : Result Word :=
  if 1 ≤ n ∧ n ≤ 31 then .next (rotlBits x n) else .refused .rotateAmountUndefined

/-- The four-operand sum of a step, modulo 2^32: `p + Φ(q, r, u) + X[k] + KR` with the roles bound by R149. -/
def stepSum (r : Round) (v : Quad) (t : Slot) (x : Word) : Word :=
  readSlot v t
    + mixer r (readSlot v (nextSlot t)) (readSlot v (nextSlot (nextSlot t))) (readSlot v (nextSlot (nextSlot (nextSlot t))))
    + x + roundConstant r

end Sys2Proof.Machine
end

