-- ==== Sys2Proof/Machine/Flags.lean ====
section
/-! DEFINITION. The flags and the status word (spec/10_state.md section 5), and the register encodings of seq and CONT. The core
keeps no arithmetic flag (R41). -/

namespace Sys2Proof.Machine

/-- cmd_ready = (seq = IDLE) (R38). -/
def cmdReady (s : State) : Bool := decide (s.seq = .idle)

/-- BUSY, derived: seq ≠ IDLE (R36). -/
def busy (s : State) : Bool := !cmdReady s

/-- STATUS (R37): bit 0 BUSY, bit 1 DONE, bit 2 ERR, bits 7:4 ECODE, bits 3 and 31:8 read 0. -/
def statusWord (s : State) : BitVec 32 :=
  ((((0#24 ++ s.ecode) ++ 0#1) ++ BitVec.ofBool s.err) ++ BitVec.ofBool s.done) ++ BitVec.ofBool (busy s)

/-- The 6-bit encoding of seq (R31). -/
def seqBits : Seq → BitVec 6
  | .idle => 0x00#6
  | .loadv => 0x01#6
  | .feed => 0x02#6
  | .pad2 => 0x03#6
  | .out => 0x04#6
  | .step i => BitVec.ofNat 6 (0x10 + i.val)

/-- The 2-bit encoding of CONT (R30). -/
def contBits : Cont → BitVec 2
  | .none => 0#2
  | .pad2 => 1#2
  | .out => 2#2

end Sys2Proof.Machine
end

