-- ==== Sys2Proof/Machine/Commands.lean ====
section
/-! DEFINITION. The host commands INIT, ABSORB and FINALIZE (spec/45_host_commands.md) with the acceptance checks of R222, and the
padder's PADTAIL (spec/40_padder.md R106). -/

namespace Sys2Proof.Machine

/-- The checks of R222 for a command that DONE = 1 forbids: the error lock first, then the phase. -/
def acceptUnlessDone (code : ProtocolCode) (action : State → Result State) (s : State) : Result State :=
  if s.err = true then .next (refuseCommand s)
  else if s.done = true then .next (raiseProtocolError code s)
  else action s

/-- The acceptance of an illegal word (R222): refused under the lock, a protocol error otherwise. -/
def rejectWord (code : ProtocolCode) (s : State) : State :=
  if s.err = true then refuseCommand s else raiseProtocolError code s

/-- A new message (R224): BUF and V are not written. -/
def startMessage (s : State) : State :=
  { clearProtocolError s with
    h := iv, bufcnt := 0#6, len := 0#64, cont := .none, done := false, digest := none, seq := .idle }

/-- ABSORB's action (R226): the byte into BUF[BUFCNT], LEN + 8, and a full block starts its compression. -/
def absorbByte (data : Byte) (s : State) : Result State :=
  andThen (memWrite s.buf s.bufcnt.toNat [data]) fun m =>
    if s.bufcnt = 63#6 then
      .next { s with buf := m, len := s.len + 8#64, bufcnt := 0#6, cont := .none, seq := .loadv }
    else
      .next { s with buf := m, len := s.len + 8#64, bufcnt := s.bufcnt + 1#6 }

/-- PADTAIL (R106): 0x80, zeros to the end of the block, and LEN over bytes 56..63 when the tail leaves room for it. -/
def padTail (s : State) : Result State :=
  andThen (memWrite s.buf s.bufcnt.toNat [0x80#8]) fun m1 =>
  andThen (memWrite m1 (s.bufcnt.toNat + 1) (zeros (63 - s.bufcnt.toNat))) fun m2 =>
    if s.bufcnt.toNat ≤ 55 then
      andThen (memWrite m2 56 (leBytes64 s.len)) fun m3 =>
        .next { s with buf := m3, cont := .out, bufcnt := 0#6, seq := .loadv }
    else
      .next { s with buf := m2, cont := .pad2, bufcnt := 0#6, seq := .loadv }

/-- INIT (R224): accepted also while ERR = 1 (R222). -/
def execInit (s : State) : Result State := .next (startMessage s)

/-- ABSORB (R226). -/
def execAbsorb (data : Byte) (s : State) : Result State :=
  acceptUnlessDone .absorbAfterDone (absorbByte data) s

/-- FINALIZE (R228). -/
def execFinalize (s : State) : Result State :=
  acceptUnlessDone .finalizeAfterDone padTail s

end Sys2Proof.Machine
end

