-- ==== Sys2Proof/Machine/Engine.lean ====
section
/-! DEFINITION. The step instructions STEP_F, STEP_G and STEP_H (spec/42_step_engine.md section 3). -/

namespace Sys2Proof.Machine

/-- The shared pseudocode of R150 to R152: `V[t] <- rotl(p + Φ(q, r, u) + X[k] + KR, s)`, every input read before the write;
the other three V registers and all other state unchanged. `seq` advances in the sequencer (R176). -/
def roundStep (r : Round) (t : Slot) (k : BitVec 4) (n : BitVec 5) (s : State) : Result State :=
  andThen (blockWord s.buf k) fun x =>
  andThen (rotl (stepSum r s.v t x) n.toNat) fun y =>
    .next { s with v := writeSlot s.v t y }

/-- STEP_F, the round-1 step (R150). -/
def execStepF (t : Slot) (k : BitVec 4) (n : BitVec 5) (s : State) : Result State := roundStep .r1 t k n s

/-- STEP_G, the round-2 step (R151). -/
def execStepG (t : Slot) (k : BitVec 4) (n : BitVec 5) (s : State) : Result State := roundStep .r2 t k n s

/-- STEP_H, the round-3 step (R152). -/
def execStepH (t : Slot) (k : BitVec 4) (n : BitVec 5) (s : State) : Result State := roundStep .r3 t k n s

end Sys2Proof.Machine
end

