-- ==== Sys2Proof/Machine/Dispatch.lean ====
section
/-! DEFINITION. One arm per constructor of `Instr`. -/

namespace Sys2Proof.Machine

def exec (i : Instr) (s : State) : Host.Outcome State Fault Refusal :=
  match i with
  | .init => Sys2Proof.Machine.execInit s
  | .absorb data => Sys2Proof.Machine.execAbsorb data s
  | .finalize => Sys2Proof.Machine.execFinalize s
  | .stepF slot k n => Sys2Proof.Machine.execStepF slot k n s
  | .stepG slot k n => Sys2Proof.Machine.execStepG slot k n s
  | .stepH slot k n => Sys2Proof.Machine.execStepH slot k n s

end Sys2Proof.Machine
end

