-- ==== Sys2Proof/Machine/Sequencer.lean ====
section
/-! DEFINITION. The core's transitions (spec/45_host_commands.md R221): the acceptance of a command word, and the sequencer states
LOADV, STEP(i), FEED, PAD2 and OUT. -/

namespace Sys2Proof.Machine

/-! ## Serialization (spec/44_serializer.md) -/

/-- `serialize(H)` (R200). -/
def serialize (h : Quad) : List Byte := leBytes32 h.a ++ leBytes32 h.b ++ leBytes32 h.c ++ leBytes32 h.d

/-- The 16 bytes of R200 as the register DIGEST holds them. -/
def digestOf (h : Quad) : Vector Byte 16 := ⟨⟨serialize h⟩, by simp [serialize, leBytes32]⟩

/-- The 128-bit presentation of DIGEST: byte i on bits [8i+7:8i] (R204). -/
def digestBus (d : Vector Byte 16) : BitVec 128 :=
  d.toList.foldr (fun b acc => (acc <<< 8) ||| b.setWidth 128) 0#128

/-! ## Sequencer states that are not instructions (R77) -/

/-- LOADV (R173). -/
def loadV (s : State) : State := { s with v := s.h, seq := .step 0 }

/-- Where seq goes after FEED (R179). -/
def seqAfterFeed : Cont → Seq
  | .none => .idle
  | .pad2 => .pad2
  | .out => .out

/-- FEED (R179): H + V into H, each word modulo 2^32. -/
def feedForward (s : State) : State := { s with h := addQuad s.h s.v, seq := seqAfterFeed s.cont }

/-- PAD2, the second padding block (R107). -/
def padSecond (s : State) : Result State :=
  andThen (memWrite s.buf 0 (zeros 56)) fun m1 =>
  andThen (memWrite m1 56 (leBytes64 s.len)) fun m2 =>
    .next { s with buf := m2, cont := .out, seq := .loadv }

/-- OUT (R202). -/
def serializeOut (s : State) : State := { s with digest := some (digestOf s.h), done := true, seq := .idle }

/-- Where seq goes after STEP(i): STEP(i+1), and FEED after STEP(47) (R32, R176). -/
def seqAfterStep (i : Fin 48) : Seq := if h : i.val < 47 then .step ⟨i.val + 1, by omega⟩ else .feed

/-- The fetch of microword i from the step ROM, the only place microwords come from (R65). -/
def fetchMicroword (s : State) (i : Fin 48) : Microword := s.rom[i.val]

/-- STEP(i) (R176): fetch ROM[i], run the instruction it decodes to, advance seq. A reserved microword is refused (R76). -/
def stepTransition (i : Fin 48) (s : State) : Result State :=
  match decodeUw (fetchMicroword s i) with
  | .error why => .refused (.reservedMicroword why)
  | .ok ins => andThen (exec ins s) fun t => .next { t with seq := seqAfterStep i }

/-! ## Command acceptance (R222) -/

/-- The core takes the presented word w and does what R222 says of it. -/
def acceptWord (w : CommandWord) (s : State) : Result State :=
  match decodeCmd w with
  | .ok ins => exec ins (takeCommand s)
  | .error code => .next (rejectWord code (takeCommand s))

/-! ## One transition of the core (R221) -/

/-- The core's transition, chosen by seq. At IDLE with no command presented the core does nothing and keeps all state (R221,
R274; log entry 7). -/
def coreTransition (s : State) : Result State :=
  match s.seq with
  | .idle =>
    match s.cmd with
    | some w => acceptWord w s
    | none => .next s
  | .loadv => .next (loadV s)
  | .step i => stepTransition i s
  | .feed => .next (feedForward s)
  | .pad2 => padSecond s
  | .out => .next (serializeOut s)

end Sys2Proof.Machine
end

