-- ==== Sys2Proof/Machine/HostPort.lean ====
section
/-! DEFINITION. The host's moves (spec/45_host_commands.md R220) and reset (spec/70_reset_and_hazards.md R280). -/

namespace Sys2Proof.Machine

/-- Reset as a host move (R280): every piece of hardware state at its reset value, at any time. The ROM is fixed contents; the
fault log is not cleared (R280); the host keeps its script, what it has read, and a word it still holds on CMD (log entry 4). -/
def applyReset (s : State) : State :=
  { State.reset with rom := s.rom, cmd := s.cmd, faultLog := s.faultLog, host := s.host, reads := s.reads }

/-- The host drives a word on CMD (R220 a). -/
def presentWord (w : CommandWord) (s : State) : State := { s with cmd := some w }

/-- A read of STATUS: its value goes to the host, nothing else changes (R58). -/
def readStatus (s : State) : State := { s with reads := s.reads ++ [.status (statusWord s)] }

/-- A read of DIGEST[i]: allowed only while DONE = 1 (R220 c), a model fault otherwise (R287). -/
def readDigest (i : Fin 16) (s : State) : Result State :=
  match s.done, s.digest with
  | true, some d => .next { s with reads := s.reads ++ [.digest i d[i]] }
  | _, _ => .fault .digestReadWhileNotDone

/-- The host's script without its first move. -/
def dropMove (s : State) : State := { s with host := s.host.tail }

/-- One move of the machine: the head of the host's script says who moves. With no script the core moves. A host that still
holds a word on CMD can present no other (R220 a), so the core moves and the script waits. -/
def machineStep (s : State) : Result State :=
  match s.host with
  | [] => coreTransition s
  | .yield :: _ => coreTransition (dropMove s)
  | .present w :: _ => if s.cmd = none then .next (presentWord w (dropMove s)) else coreTransition s
  | .readStatus :: _ => .next (readStatus (dropMove s))
  | .readDigest i :: _ => readDigest i (dropMove s)
  | .assertReset :: _ => .next (applyReset (dropMove s))

/-- The machine placed so that its next step takes the command word w (log entry 8). -/
def placeCommandWord (w : CommandWord) (s : State) : State := { s with host := [], cmd := some w, seq := .idle }

/-- The machine placed so that its next step fetches the microword u: at STEP(0), with u in ROM word 0, and a value in every
BUF byte, as BUF has whenever a STEP runs (R246; log entry 8). -/
def placeMicroword (u : Microword) (s : State) : State :=
  { s with host := [], rom := s.rom.set 0 u, buf := Memory.fillUnwritten s.buf, seq := .step 0 }

/-- The word of a table row placed where the next step fetches it: at most 16 bits is a microword, more is a command word. -/
def placeTableWord (nbits w : Nat) (s : State) : State :=
  if nbits ≤ 16 then placeMicroword (BitVec.ofNat 16 w) s else placeCommandWord (BitVec.ofNat 32 w) s

end Sys2Proof.Machine
end

