-- ==== Sys2Proof/Machine/Step.lean ====
section
/-! DEFINITION. The machine's step. -/

namespace Sys2Proof.Machine

/-- One transition of the core or one move of the host (R13, R221). -/
def step (s : State) : Host.Outcome State Fault Refusal := machineStep s

/-- `s` with a table row's word placed so that the next step fetches and runs it. -/
def State.withFetchWord (s : State) (nbits w : Nat) : State := placeTableWord nbits w s

end Sys2Proof.Machine
end

