-- ==== Sys2Proof/Machine/Assembler.lean ====
section
/-! DEFINITION. The assembler syntax of spec/30_encoding.md section 6: the command lines of R80, the pseudo-instructions of R81, and
the microword listing of R82. Texts are lists of characters. -/

namespace Sys2Proof.Machine

/-- The text after a fixed beginning. -/
def afterPrefix : List Char → List Char → Option (List Char)
  | [], t => some t
  | _ :: _, [] => none
  | p :: ps, c :: cs => if p = c then afterPrefix ps cs else none

/-- The value of a hexadecimal digit, either case. -/
def digitValue (c : Char) : Option Nat :=
  let n := c.toNat
  if 48 ≤ n ∧ n ≤ 57 then some (n - 48)
  else if 97 ≤ n ∧ n ≤ 102 then some (n - 87)
  else if 65 ≤ n ∧ n ≤ 70 then some (n - 55)
  else none

/-- Digits read into an accumulator, each below the base. -/
def readDigits (base acc : Nat) : List Char → Option Nat
  | [] => some acc
  | c :: cs =>
    match digitValue c with
    | some v => if v < base then readDigits base (acc * base + v) cs else none
    | none => none

/-- A non-empty number in a base. -/
def readNumber (base : Nat) : List Char → Option Nat
  | [] => none
  | c :: cs => readDigits base 0 (c :: cs)

/-- The ASCII code of a character (R80, K1). -/
def asciiByte (c : Char) : Option Byte := if c.toNat < 128 then some (BitVec.ofNat 8 c.toNat) else none

/-- The codes of a string's characters, in order. -/
def asciiBytes : List Char → Option (List Byte)
  | [] => some []
  | c :: cs =>
    match asciiByte c, asciiBytes cs with
    | some b, some bs => some (b :: bs)
    | _, _ => none

/-- A byte operand: `0xNN`, decimal, or a character in single quotes (R80). -/
def readByte (t : List Char) : Option Byte :=
  match t with
  | ['0', 'x', h, l] => (readNumber 16 [h, l]).map (BitVec.ofNat 8)
  | ['\'', c, '\''] => asciiByte c
  | _ =>
    match readNumber 10 t with
    | some n => if n < 256 then some (BitVec.ofNat 8 n) else none
    | none => none

/-- The bytes of a string in double quotes. -/
def readQuoted : List Char → Option (List Byte)
  | '"' :: t => if t.getLast? = some '"' then asciiBytes t.dropLast else none
  | _ => none

/-- `ABSORBS "<string>"`: one ABSORB per byte, in order (R81). -/
def absorbsExpansion (bs : List Byte) : List Instr := bs.map .absorb

/-- `HASH "<string>"`: INIT, the ABSORBS expansion, FINALIZE (R81). -/
def hashExpansion (bs : List Byte) : List Instr := .init :: (absorbsExpansion bs ++ [.finalize])

/-- A register name of the listing (R82). -/
def readSlotName : Char → Option Slot
  | 'a' => some .a
  | 'b' => some .b
  | 'c' => some .c
  | 'd' => some .d
  | _ => none

/-- The operands `<v>, X[<k>], <s>` of a step (R82), in range and with S not reserved. -/
def readStepOperands (r : Round) : List Char → Option Instr
  | v :: t =>
    match readSlotName v, afterPrefix [',', ' ', 'X', '['] t with
    | some slot, some u =>
      match readNumber 10 (u.takeWhile (· != ']')), afterPrefix [']', ',', ' '] (u.dropWhile (· != ']')) with
      | some k, some w =>
        match readNumber 10 w with
        | some n => if k < 16 ∧ 1 ≤ n ∧ n < 32 then some (r.stepInstr slot (BitVec.ofNat 4 k) (BitVec.ofNat 5 n)) else none
        | none => none
      | _, _ => none
    | _, _ => none
  | [] => none

/-- The instructions of one source line (R80, R81, R82); `none` for any other text. -/
def assembleLine (t : List Char) : Option (List Instr) :=
  if t = ['I', 'N', 'I', 'T'] then some [.init]
  else if t = ['F', 'I', 'N', 'A', 'L', 'I', 'Z', 'E'] then some [.finalize]
  else
    match afterPrefix ['A', 'B', 'S', 'O', 'R', 'B', ' '] t with
    | some u => (readByte u).map fun b => [.absorb b]
    | none =>
      match afterPrefix ['A', 'B', 'S', 'O', 'R', 'B', 'S', ' '] t with
      | some u => (readQuoted u).map absorbsExpansion
      | none =>
        match afterPrefix ['H', 'A', 'S', 'H', ' '] t with
        | some u => (readQuoted u).map hashExpansion
        | none =>
          match afterPrefix ['S', 'T', 'E', 'P', '_'] t with
          | some ('F' :: ' ' :: u) => (readStepOperands .r1 u).map fun i => [i]
          | some ('G' :: ' ' :: u) => (readStepOperands .r2 u).map fun i => [i]
          | some ('H' :: ' ' :: u) => (readStepOperands .r3 u).map fun i => [i]
          | _ => none

/-- The words of one source line. -/
def assembleWords (t : List Char) : Option (List Encoded) := (assembleLine t).map (List.map encode)

end Sys2Proof.Machine
end

