-- ==== Sys2Proof/Machine/Reference.lean ====
section
/-! DEFINITION. The source's functions, which are normative and which the transitions implement: the padding function (R103), the
compression function (R175), the fold (R181), md4_digest (R240), and the hex observation (R205, R245). None of them reads State. -/

namespace Sys2Proof.Machine

/-- z = (55 - len(m)) mod 64, the number of zero bytes (R101). -/
def padZeroCount (n : Nat) : Nat := ((55 - (n : Int)) % 64).toNat

/-- The message's bit length modulo 2^64 (R102). -/
def bitLength (n : Nat) : BitVec 64 := BitVec.ofNat 64 (8 * n)

/-- `pad(m)` (R103). The length is appended once (C2) and counts bits (C3). -/
def pad (m : List Byte) : List Byte :=
  m ++ [0x80#8] ++ zeros (padZeroCount m.length) ++ leBytes64 (bitLength m.length)

/-- Word X[k] of a block given as bytes (R121). -/
def wordOfBlock (block : List Byte) (k : Nat) : Word := le32OfBytes (block.drop (4 * k))

/-- Step i of a round on words x: the formulas of R146 with the schedule of R170. -/
def scheduledStep (x : Nat → Word) (r : Round) (v : Quad) (i : Nat) : Quad :=
  writeSlot v (slotOfStep i)
    (rotlBits (stepSum r v (slotOfStep i) (x (wordIndexOfStep r i))) (rotateOfStep r i))

/-- `round_r(V, X)`: sixteen steps, each on its predecessor's V (R172). -/
def roundPass (x : Nat → Word) (r : Round) (v : Quad) : Quad := (List.range 16).foldl (scheduledStep x r) v

/-- `compress(H, block)` (R175): the rounds are chained (R174, C4), then the feed-forward. -/
def compress (h : Quad) (block : List Byte) : Quad :=
  addQuad h (roundPass (wordOfBlock block) .r3 (roundPass (wordOfBlock block) .r2 (roundPass (wordOfBlock block) .r1 h)))

/-- Block i of a padded message: `P[64i .. 64i+63]`. -/
def blockOf (p : List Byte) (i : Nat) : List Byte := (p.drop (64 * i)).take 64

/-- The fold of a padded message's blocks, in order, from a chaining state (R181). -/
def foldBlocks (h : Quad) (p : List Byte) : Quad :=
  (List.range (p.length / 64)).foldl (fun acc i => compress acc (blockOf p i)) h

/-- The chaining state after the last block of a message. -/
def md4State (m : List Byte) : Quad := foldBlocks iv (pad m)

/-- `md4_digest(m)` (R240). -/
def md4Digest (m : List Byte) : List Byte := serialize (md4State m)

/-- The digit of a nibble: 0-9, then a-f (R205). -/
def hexDigit (x : BitVec 4) : Char :=
  ['0', '1', '2', '3', '4', '5', '6', '7', '8', '9', 'a', 'b', 'c', 'd', 'e', 'f'].getD x.toNat '0'

/-- `hex(d)`: two digits a byte, the high nibble first (R205). -/
def hex (d : List Byte) : List Char :=
  d.flatMap fun b => [hexDigit (b.extractLsb' 4 4), hexDigit (b.extractLsb' 0 4)]

/-- `md4_hex(m)` (R245). -/
def md4Hex (m : List Byte) : List Char := hex (md4Digest m)

end Sys2Proof.Machine
end

