-- ==== Sys2Proof/Safety.lean ====
section
/-! DEFINITION. The terms claims are made in: runs, the invariant of the core, the end of a run, how long the core stays busy, and
the host scripts of the spec's driver. -/

namespace Sys2Proof.Machine

/-- n steps, stopping at the first that does not answer next. -/
def runSteps : Nat → State → Result State
  | 0, s => .next s
  | n + 1, s => andThen (step s) (runSteps n)

/-- The core compresses a block: from LOADV to FEED. -/
def compressing : Seq → Bool
  | .loadv => true
  | .step _ => true
  | .feed => true
  | .idle => false
  | .pad2 => false
  | .out => false

/-- The core's invariant: what the spec says of every reachable state. -/
structure Coherent (s : State) : Prop where
  /-- BUF keeps its canonical form, inside 0..63 (R50, R51). -/
  bufCanonical : Memory.wf s.buf = true
  /-- The ROM holds the 48 words of R171 (R65). -/
  romFixed : s.rom = stepRom
  /-- While a block is compressed every BUF byte holds a value (R246). -/
  blockWritten : compressing s.seq = true → ∀ j, j < 64 → (Memory.read s.buf j).isSome = true
  /-- The bytes of the block being assembled hold values (R28). -/
  tailWritten : ∀ j, j < s.bufcnt.toNat → (Memory.read s.buf j).isSome = true
  /-- No byte of an unfinished block is counted while the core is busy (R106, R226). -/
  busyCountsNothing : s.seq ≠ .idle → s.bufcnt = 0#6
  /-- While a message is absorbed, LEN and BUFCNT agree on the bytes of the open block (R28, R29). -/
  lengthCountsTail : s.cont = .none → s.len.toNat % 512 = 8 * s.bufcnt.toNat
  /-- ECODE is 0 exactly while ERR = 0, and never above 4 (R35, R261). -/
  errorCode : (s.err = true ↔ s.ecode ≠ 0#4) ∧ s.ecode.toNat ≤ 4
  /-- DIGEST holds a value exactly while DONE = 1, and it is the serialized H (R33, R39). -/
  digestValue : s.digest = if s.done = true then some (digestOf s.h) else none
  /-- A finished message and an error both leave the core at IDLE (R202, R262). -/
  flagsAtIdle : s.done = true ∨ s.err = true → s.seq = .idle
  /-- CONT at the sequencer states it leads to (R107, R179, R202). -/
  contAtSeq : (s.seq = .pad2 → s.cont = .pad2) ∧ (s.seq = .out → s.cont = .out)
  /-- CONT at IDLE: NONE while a message is open, OUT once it is finished (R202, R224, R226). -/
  contAtIdle : s.seq = .idle → s.cont = if s.done = true then .out else .none

/-- Nothing is left to do: the end of a run (R230). -/
def AtEnd (s : State) : Prop := s.seq = .idle ∧ s.cmd = none ∧ s.host = []

/-- The run carries no recorded fault: the premise of a claim that it computed a digest (R262). -/
def NoFaultRecorded (s : State) : Prop := s.faultLog = []

/-- The core's transitions until it is at IDLE again (R180, R228, R242): a block from a sequencer state takes what is left of
its 50 transitions, and then CONT says what follows. -/
def afterBlock : Cont → Nat
  | .none => 0
  | .out => 1
  | .pad2 => 52

/-- The transitions left of a BUSY period. -/
def transitionsLeft (s : State) : Nat :=
  match s.seq with
  | .idle => 0
  | .loadv => 50 + afterBlock s.cont
  | .step i => (49 - i.val) + afterBlock s.cont
  | .feed => 1 + afterBlock s.cont
  | .pad2 => 52
  | .out => 1

/-- The core is at IDLE after n steps, and at none of the states before that. -/
def IdleAfterExactly (n : Nat) (s : State) : Prop :=
  (∃ t, runSteps n s = .next t ∧ t.seq = .idle) ∧ ∀ k, k < n → ∃ t, runSteps k s = .next t ∧ t.seq ≠ .idle

/-- A host that presents each command in turn, holding it until it is taken (R220 a, R283). -/
def presentAll (is : List Instr) : List HostMove :=
  is.filterMap fun i =>
    match encode i with
    | .cmd32 w => some (.present w)
    | .uw16 _ => none

/-- The driver of R241: INIT, one ABSORB a byte, FINALIZE. -/
def hashScript (m : List Byte) : List HostMove := presentAll (hashExpansion m)

/-- The driver of R282: after reset a host may start without INIT. -/
def hashScriptAfterReset (m : List Byte) : List HostMove := presentAll (absorbsExpansion m ++ [.finalize])

/-- The bytes of the block in BUF, where a byte without a value counts as 0 (only for claims about states in which every byte
holds one). -/
def blockBytes (m : Memory) : List Byte := (List.range 64).map fun j => (Memory.read m j).getD 0#8

end Sys2Proof.Machine
end

