-- ==== Sys2Proof/Certificates/Slice0/Obligations.lean ====
section
/-! DEFINITION. The statements for the provers. Each docstring names the rule of spec/ it formalises, or the sections it rests on. -/

open Sys2Proof Sys2Proof.Machine

/-! ## Encoding -/

/-- R71 to R76, R82: every well-formed instruction, with every operand at every value its field admits, is what its word decodes to. -/
def Obligations.DecodeOfEncodeIsTheInstr : Prop :=
  ∀ i : Instr, i.wellFormed = true → decode (encode i) = some i

/-- D4, R70: a word that decodes is the word of a well-formed instruction: no word has two meanings and no bit is ignored. -/
def Obligations.EncodeOfDecodeIsTheWord : Prop :=
  ∀ (e : Encoded) (i : Instr), decode e = some i → i.wellFormed = true ∧ encode i = e

/-- The 258 legal command words of R75. -/
def Sys2Proof.Machine.legalCommandWords : List CommandWord :=
  0x10000000#32 :: 0x30000000#32 :: (List.range 256).map fun d => 0x20000000#32 + BitVec.ofNat 32 d

/-- R75, with the fields read off the word as a number: the exact patterns, the two kinds of illegal word in their order, and
the count of the legal words. -/
def Obligations.CommandPatternsAreExact : Prop :=
  (∀ w : CommandWord,
    (decodeCmd w = .ok .init ↔ w = 0x10000000#32)
    ∧ (∀ d : Byte, decodeCmd w = .ok (.absorb d) ↔ w.toNat = 0x20000000 + d.toNat)
    ∧ (decodeCmd w = .ok .finalize ↔ w = 0x30000000#32)
    ∧ (decodeCmd w = .error .illegalOpcode ↔ w.toNat / 2 ^ 28 ≠ 1 ∧ w.toNat / 2 ^ 28 ≠ 2 ∧ w.toNat / 2 ^ 28 ≠ 3)
    ∧ (decodeCmd w = .error .reservedField ↔
        (w.toNat / 2 ^ 28 = 1 ∨ w.toNat / 2 ^ 28 = 2 ∨ w.toNat / 2 ^ 28 = 3)
        ∧ (w.toNat / 2 ^ 8 % 2 ^ 20 ≠ 0 ∨ (w.toNat / 2 ^ 28 ≠ 2 ∧ w.toNat % 2 ^ 8 ≠ 0)))
    ∧ ((∃ i, decodeCmd w = .ok i) ↔ w ∈ legalCommandWords))
  ∧ legalCommandWords.Nodup ∧ legalCommandWords.length = 258

/-- The match of a round's row in the UW16 table of R76. -/
def Sys2Proof.Machine.uwMatch : Round → Microword
  | .r1 => 0x0000#16
  | .r2 => 0x4000#16
  | .r3 => 0x8000#16

/-- R72, R74, R76: a microword is a step of a round exactly when it meets the row's mask and match and S ≠ 0; its fields stand
where R72 puts them; every other microword is reserved; no word of the ROM is. -/
def Obligations.MicrowordPatternsAreExact : Prop :=
  (∀ (u : Microword) (r : Round),
    ((∃ t k n, decodeUw u = .ok (r.stepInstr t k n)) ↔ u &&& 0xC0E0#16 = uwMatch r ∧ u.toNat % 32 ≠ 0)
    ∧ (∀ t k n, decodeUw u = .ok (r.stepInstr t k n) →
        t.bits.toNat = u.toNat / 2 ^ 12 % 4 ∧ k.toNat = u.toNat / 2 ^ 8 % 16 ∧ n.toNat = u.toNat % 32))
  ∧ (∀ u : Microword,
      (∃ why, decodeUw u = .error why) ↔ u.toNat / 2 ^ 14 = 3 ∨ u.toNat / 2 ^ 5 % 8 ≠ 0 ∨ u.toNat % 32 = 0)
  ∧ ∀ j : Fin 48, ∃ i, decodeUw (stepRom[j.val]) = .ok i

/-- Two instructions are built by the same constructor, whatever their operands: one row of the opcode table stands for both. -/
def Sys2Proof.Machine.SameConstructor (i j : Instr) : Prop :=
  (i = .init ∧ j = .init)
  ∨ (∃ d d', i = .absorb d ∧ j = .absorb d')
  ∨ (i = .finalize ∧ j = .finalize)
  ∨ ∃ r t k n t' k' n', i = Round.stepInstr r t k n ∧ j = Round.stepInstr r t' k' n'

/-- The opcode table, R75 and R76: no word lies in the rows of two different instructions; a word that decodes lies in the row of
its instruction; a word in a row decodes to that row's instruction, unless it is a microword with S = 0. -/
def Obligations.OpcodeRowsDoNotOverlap : Prop :=
  (∀ (e : Encoded) (i j : Instr), e.inRow (opcodeRow i) → e.inRow (opcodeRow j) → SameConstructor i j)
  ∧ (∀ (e : Encoded) (i : Instr), decode e = some i → e.inRow (opcodeRow i))
  ∧ ∀ (e : Encoded) (i : Instr), e.inRow (opcodeRow i) →
      (∃ j, decode e = some j ∧ SameConstructor i j) ∨ ∃ u : Microword, e = .uw16 u ∧ u.toNat % 32 = 0

/-- R75, R171: words written out in the spec decode to the instructions they stand for. -/
def Obligations.WordsOfTheSpecDecode : Prop :=
  decode (.cmd32 0x10000000#32) = some .init
  ∧ decode (.cmd32 0x20000061#32) = some (.absorb 0x61#8)
  ∧ decode (.cmd32 0x30000000#32) = some .finalize
  ∧ decode (.uw16 0x1313#16) = some (.stepF .b 3#4 19#5)
  ∧ decode (.uw16 0x7405#16) = some (.stepG .d 4#4 5#5)
  ∧ decode (.uw16 0xA40B#16) = some (.stepH .c 4#4 11#5)

/-- R72, R82: the word is RND·2^14 + SLOT·2^12 + K·2^8 + S. -/
def Obligations.MicrowordIsItsFields : Prop :=
  ∀ (r : Round) (t : Slot) (k : BitVec 4) (n : BitVec 5),
    (encodeUw r t k n).toNat = r.bits.toNat * 2 ^ 14 + t.bits.toNat * 2 ^ 12 + k.toNat * 2 ^ 8 + n.toNat

/-- R80, R81: for every string of ASCII characters, the line HASH "<string>" is INIT, one ABSORB of each character's code in
order, and FINALIZE. That a string runs from the first to the last double quote of its line, so that it may hold a double quote
or a control character, is the model's choice (log entry 11), and so is the code of a character (entry 11, ASCII). -/
def Obligations.HashLineExpands : Prop :=
  ∀ t : List Char, (∀ c ∈ t, c.toNat < 128) →
    assembleLine (['H', 'A', 'S', 'H', ' ', '"'] ++ t ++ ['"'])
      = some (.init :: ((t.map fun c => Instr.absorb (BitVec.ofNat 8 c.toNat)) ++ [.finalize]))

/-- R171: the 48 words of the step ROM as the spec's table writes them, and its formula. -/
def Obligations.StepRomWordsAreTheTable : Prop :=
  stepRom.toList
    = [0x0003#16, 0x3107#16, 0x220B#16, 0x1313#16, 0x0403#16, 0x3507#16, 0x260B#16, 0x1713#16,
       0x0803#16, 0x3907#16, 0x2A0B#16, 0x1B13#16, 0x0C03#16, 0x3D07#16, 0x2E0B#16, 0x1F13#16]
      ++ [0x4003#16, 0x7405#16, 0x6809#16, 0x5C0D#16, 0x4103#16, 0x7505#16, 0x6909#16, 0x5D0D#16,
          0x4203#16, 0x7605#16, 0x6A09#16, 0x5E0D#16, 0x4303#16, 0x7705#16, 0x6B09#16, 0x5F0D#16]
      ++ [0x8003#16, 0xB809#16, 0xA40B#16, 0x9C0F#16, 0x8203#16, 0xBA09#16, 0xA60B#16, 0x9E0F#16,
          0x8103#16, 0xB909#16, 0xA50B#16, 0x9D0F#16, 0x8303#16, 0xBB09#16, 0xA70B#16, 0x9F0F#16]
  ∧ ∀ (r : Round) (i : Fin 16),
      stepRom.toList[16 * r.bits.toNat + i.val]?
        = some (BitVec.ofNat 16 ((r.bits.toNat <<< 14) ||| ([0, 3, 2, 1].getD (i.val % 4) 0 <<< 12)
            ||| ((wordOrder r).getD i.val 0 <<< 8) ||| (rotateCycle r).getD (i.val % 4) 0))

/-! ## Operands and functional units -/

/-- R124: the little-endian round trip, both ways. -/
def Obligations.WordCodecRoundTrips : Prop :=
  (∀ w : Word, le32OfBytes (leBytes32 w) = w)
  ∧ ∀ b0 b1 b2 b3 : Byte, leBytes32 (le32 b0 b1 b2 b3) = [b0, b1, b2, b3]

/-- R120, R122, R123: which byte is which. -/
def Obligations.LittleEndianByteOrder : Prop :=
  (∀ b0 b1 b2 b3 : Byte,
    (le32 b0 b1 b2 b3).toNat = b0.toNat + 2 ^ 8 * b1.toNat + 2 ^ 16 * b2.toNat + 2 ^ 24 * b3.toNat)
  ∧ (∀ w : Word, (leBytes32 w).length = 4) ∧ (∀ v : BitVec 64, (leBytes64 v).length = 8)
  ∧ (∀ (w : Word) (i : Nat), i < 4 → (leBytes32 w)[i]? = some (BitVec.ofNat 8 (w.toNat / 2 ^ (8 * i))))
  ∧ ∀ (v : BitVec 64) (i : Nat), i < 8 → (leBytes64 v)[i]? = some (BitVec.ofNat 8 (v.toNat / 2 ^ (8 * i)))

/-- R140, R141, R142: each mixer as the spec writes it, and bit by bit: if-then-else, majority, parity. -/
def Obligations.MixersPerBit : Prop :=
  ∀ (x y z : Word),
    mixF x y z = (x &&& y) ||| (~~~x &&& z)
    ∧ mixG x y z = (x &&& y) ||| (x &&& z) ||| (y &&& z)
    ∧ mixH x y z = x ^^^ y ^^^ z
    ∧ ∀ i : Nat, i < 32 →
      (mixF x y z).getLsbD i = (if x.getLsbD i = true then y.getLsbD i else z.getLsbD i)
      ∧ (mixG x y z).getLsbD i
          = decide (2 ≤ (x.getLsbD i).toNat + (y.getLsbD i).toNat + (z.getLsbD i).toNat)
      ∧ (mixH x y z).getLsbD i
          = decide (((x.getLsbD i).toNat + (y.getLsbD i).toNat + (z.getLsbD i).toNat) % 2 = 1)

/-- R144: the rotator for 1..31, bit by bit; no value for any other amount; the amounts of the ROM. -/
def Obligations.RotatorMovesBits : Prop :=
  (∀ (x : Word) (n : Nat), 1 ≤ n → n ≤ 31 →
    rotl x n = .next ((x <<< n) ||| (x >>> (32 - n)))
    ∧ ∀ i : Nat, i < 32 → ((x <<< n) ||| (x >>> (32 - n))).getLsbD i = x.getLsbD ((i + 32 - n) % 32))
  ∧ (∀ (x : Word) (n : Nat), n = 0 ∨ 32 ≤ n → rotl x n = .refused .rotateAmountUndefined)
  ∧ ∀ j : Fin 48, (uwS (stepRom[j.val])).toNat ∈ [3, 5, 7, 9, 11, 13, 15, 19]

/-- R51: MemRead and MemWrite inside BUF, and refused outside; a byte without a value makes the read a fault (I6; the model's choice,
log entry 2). -/
def Obligations.MemoryPrimitives : Prop :=
  (∀ (m : Memory) (j n : Nat), j + n ≤ 64 → (∀ i, i < n → (Memory.read m (j + i)).isSome = true) →
    ∃ bs, memRead m j n = .next bs ∧ bs.length = n ∧ ∀ i, i < n → Memory.read m (j + i) = bs[i]?)
  ∧ (∀ (m : Memory) (j n i : Nat), j + n ≤ 64 → i < n → Memory.read m (j + i) = none →
      memRead m j n = .fault .bufByteHoldsNoValue)
  ∧ (∀ (m : Memory) (j : Nat) (v : List Byte), j + v.length ≤ 64 →
    ∃ m', memWrite m j v = .next m' ∧ (Memory.wf m = true → Memory.wf m' = true)
      ∧ (∀ i, i < v.length → Memory.read m' (j + i) = v[i]?)
      ∧ ∀ a, a < j ∨ j + v.length ≤ a → Memory.read m' a = Memory.read m a)
  ∧ (∀ (m : Memory) (j n : Nat), 64 < j + n → memRead m j n = .refused .bufIndexOutOfRange)
  ∧ ∀ (m : Memory) (j : Nat) (v : List Byte), 64 < j + v.length → memWrite m j v = .refused .bufIndexOutOfRange

/-- R54: BUF byte j is bits 8(j mod 4)+7 to 8(j mod 4) of X[j div 4], and a byte written there is seen by the next read of
that word. -/
def Obligations.BufferByteInsideWord : Prop :=
  ∀ (m : Memory) (j : Nat) (b : Byte) (x : Word), j < 64 →
    blockWord (Memory.write m j b) (BitVec.ofNat 4 (j / 4)) = .next x → x.extractLsb' (8 * (j % 4)) 8 = b

/-! ## The step instructions -/

/-- R150, STEP_F: round 1 on the roles bound by SLOT, with no additive constant. It completes on every state whose four bytes
of X[K] hold values, and changes nothing but V[SLOT]. The roles are V[t], V[(t+1) mod 4], V[(t+2) mod 4], V[(t+3) mod 4] (R149). -/
def Obligations.StepFComputesRound1 : Prop :=
  (∀ (s : State) (t : Slot) (k : BitVec 4) (n : BitVec 5) (b0 b1 b2 b3 : Byte), n ≠ 0#5 →
    Memory.read s.buf (4 * k.toNat) = some b0 → Memory.read s.buf (4 * k.toNat + 1) = some b1 →
    Memory.read s.buf (4 * k.toNat + 2) = some b2 → Memory.read s.buf (4 * k.toNat + 3) = some b3 →
    exec (.stepF t k n) s
      = .next { s with v := writeSlot s.v t (
          (readSlot s.v t
            + ((readSlot s.v (nextSlot t) &&& readSlot s.v (nextSlot (nextSlot t)))
              ||| (~~~readSlot s.v (nextSlot t) &&& readSlot s.v (nextSlot (nextSlot (nextSlot t)))))
            + le32 b0 b1 b2 b3).rotateLeft n.toNat) })
  ∧ (∀ v : Word, mixF v v v = v)
  ∧ (∀ t : Slot, (nextSlot t).bits = t.bits + 1#2)
  ∧ (∀ (t : Slot) (k : BitVec 4) (n : BitVec 5) (u : Microword), encode (.stepF t k n) = .uw16 u → u &&& 0xC0E0#16 = 0x0000#16)

/-- R151, STEP_G: round 2, constant 0x5A827999. -/
def Obligations.StepGComputesRound2 : Prop :=
  (∀ (s : State) (t : Slot) (k : BitVec 4) (n : BitVec 5) (b0 b1 b2 b3 : Byte), n ≠ 0#5 →
    Memory.read s.buf (4 * k.toNat) = some b0 → Memory.read s.buf (4 * k.toNat + 1) = some b1 →
    Memory.read s.buf (4 * k.toNat + 2) = some b2 → Memory.read s.buf (4 * k.toNat + 3) = some b3 →
    exec (.stepG t k n) s
      = .next { s with v := writeSlot s.v t (
          (readSlot s.v t
            + ((readSlot s.v (nextSlot t) &&& readSlot s.v (nextSlot (nextSlot t)))
              ||| (readSlot s.v (nextSlot t) &&& readSlot s.v (nextSlot (nextSlot (nextSlot t))))
              ||| (readSlot s.v (nextSlot (nextSlot t)) &&& readSlot s.v (nextSlot (nextSlot (nextSlot t)))))
            + le32 b0 b1 b2 b3 + 0x5A827999#32).rotateLeft n.toNat) })
  ∧ (∀ v : Word, mixG v v v = v)
  ∧ (∀ t : Slot, (nextSlot t).bits = t.bits + 1#2)
  ∧ (∀ (t : Slot) (k : BitVec 4) (n : BitVec 5) (u : Microword), encode (.stepG t k n) = .uw16 u → u &&& 0xC0E0#16 = 0x4000#16)

/-- R152, STEP_H: round 3, constant 0x6ED9EBA1. -/
def Obligations.StepHComputesRound3 : Prop :=
  (∀ (s : State) (t : Slot) (k : BitVec 4) (n : BitVec 5) (b0 b1 b2 b3 : Byte), n ≠ 0#5 →
    Memory.read s.buf (4 * k.toNat) = some b0 → Memory.read s.buf (4 * k.toNat + 1) = some b1 →
    Memory.read s.buf (4 * k.toNat + 2) = some b2 → Memory.read s.buf (4 * k.toNat + 3) = some b3 →
    exec (.stepH t k n) s
      = .next { s with v := writeSlot s.v t (
          (readSlot s.v t
            + (readSlot s.v (nextSlot t) ^^^ readSlot s.v (nextSlot (nextSlot t))
              ^^^ readSlot s.v (nextSlot (nextSlot (nextSlot t))))
            + le32 b0 b1 b2 b3 + 0x6ED9EBA1#32).rotateLeft n.toNat) })
  ∧ (∀ v : Word, mixH v v v = v)
  ∧ (∀ t : Slot, (nextSlot t).bits = t.bits + 1#2)
  ∧ (∀ (t : Slot) (k : BitVec 4) (n : BitVec 5) (u : Microword), encode (.stepH t k n) = .uw16 u → u &&& 0xC0E0#16 = 0x8000#16)

/-- R149, R150 to R152: the frame of the three steps. Each register but V[SLOT], every flag and every byte of BUF is as before.
And which register a slot is: 0 to 3 are a to d, the next slot is one more modulo 4, and reading or writing a slot is reading or
writing its register alone. -/
def Obligations.StepsChangeOnlyTheirSlot : Prop :=
  (Slot.a.bits = 0#2 ∧ Slot.b.bits = 1#2 ∧ Slot.c.bits = 2#2 ∧ Slot.d.bits = 3#2
    ∧ ∀ t : Slot, (nextSlot t).bits = t.bits + 1#2)
  ∧ (∀ q : Quad, readSlot q .a = q.a ∧ readSlot q .b = q.b ∧ readSlot q .c = q.c ∧ readSlot q .d = q.d)
  ∧ (∀ (q : Quad) (x : Word), writeSlot q .a x = { q with a := x } ∧ writeSlot q .b x = { q with b := x }
    ∧ writeSlot q .c x = { q with c := x } ∧ writeSlot q .d x = { q with d := x })
  ∧ ∀ (r : Round) (t : Slot) (k : BitVec 4) (n : BitVec 5) (s s' : State), exec (r.stepInstr t k n) s = .next s' →
    (∀ u, u ≠ t → readSlot s'.v u = readSlot s.v u)
    ∧ (∀ a, Memory.read s'.buf a = Memory.read s.buf a)
    ∧ s'.h = s.h ∧ s'.bufcnt = s.bufcnt ∧ s'.len = s.len ∧ s'.cont = s.cont ∧ s'.seq = s.seq ∧ s'.done = s.done
    ∧ s'.err = s.err ∧ s'.ecode = s.ecode ∧ s'.digest = s.digest ∧ s'.rom = s.rom ∧ s'.cmd = s.cmd
    ∧ s'.faultLog = s.faultLog ∧ s'.host = s.host ∧ s'.reads = s.reads

/-- I1, I2, I6, R144: where a step stops. A BUF byte without a value is a fault (the model's choice, log entry 2), also when
S = 0 (which of the two stops is reported is the model's choice, log entry 12); with the word readable, S = 0 is refused. -/
def Obligations.StepsStopByName : Prop :=
  ∀ (r : Round) (t : Slot) (k : BitVec 4) (n : BitVec 5) (s : State),
    (∀ i, i < 4 → Memory.read s.buf (4 * k.toNat + i) = none →
      exec (r.stepInstr t k n) s = .fault .bufByteHoldsNoValue)
    ∧ ((∀ i, i < 4 → (Memory.read s.buf (4 * k.toNat + i)).isSome = true) → n = 0#5 →
      exec (r.stepInstr t k n) s = .refused .rotateAmountUndefined)

/-! ## The host commands -/

/-- R224, INIT: from every state, what it writes and that it writes nothing else; twice is once. -/
def Obligations.InitStartsAMessage : Prop :=
  encode .init = .cmd32 0x10000000#32
  ∧ ∀ s : State,
    exec .init s
      = .next { s with
          h := { a := 0x67452301#32, b := 0xEFCDAB89#32, c := 0x98BADCFE#32, d := 0x10325476#32 }
          bufcnt := 0#6, len := 0#64, cont := .none, done := false, err := false, ecode := 0#4, digest := none
          seq := .idle }
    ∧ ∀ t, exec .init s = .next t → exec .init t = .next t

/-- R226, ABSORB: with ERR = 0 and DONE = 0 it completes with its byte in BUF[BUFCNT] and 8 more in LEN; the 64th byte starts the
compression; every other byte of BUF and all other state is unchanged. After DONE it is ProtocolError(3), with a reserved bit
set it is ProtocolError(2), and then nothing else changes. -/
def Obligations.AbsorbAppendsAByte : Prop :=
  (∀ (d : Byte) (s : State), s.err = false → s.done = false →
    ∃ t, exec (.absorb d) s = .next t
      ∧ (∀ a, Memory.read t.buf a = if a = s.bufcnt.toNat then some d else Memory.read s.buf a)
      ∧ t.len = s.len + 8#64
      ∧ (s.bufcnt = 63#6 → t.bufcnt = 0#6 ∧ t.cont = .none ∧ t.seq = .loadv)
      ∧ (s.bufcnt ≠ 63#6 → t.bufcnt.toNat = s.bufcnt.toNat + 1 ∧ t.cont = s.cont ∧ t.seq = s.seq)
      ∧ t = { s with buf := t.buf, len := t.len, bufcnt := t.bufcnt, cont := t.cont, seq := t.seq })
  ∧ (∀ (d : Byte) (s : State), s.err = false → s.done = true →
    exec (.absorb d) s
      = .next { s with err := true, ecode := 3#4, faultLog := s.faultLog ++ [.protocolError .absorbAfterDone] })
  ∧ (∀ (w : CommandWord) (s : State), s.host = [] → s.seq = .idle → s.cmd = some w → s.err = false →
      w.toNat / 2 ^ 28 = 2 → w.toNat / 2 ^ 8 % 2 ^ 20 ≠ 0 →
      step s = .next { s with
        cmd := none, err := true, ecode := 2#4, faultLog := s.faultLog ++ [.protocolError .reservedField] })
  ∧ ∀ d : Byte, encode (.absorb d) = .cmd32 (0x20000000#32 + d.setWidth 32)

/-- R106, PADTAIL as FINALIZE's action: with ERR = 0 and DONE = 0 it completes; every byte of BUF it leaves, with r = BUFCNT; and
it writes CONT, BUFCNT and seq and nothing else. -/
def Obligations.FinalizePadsTheTail : Prop :=
  encode .finalize = .cmd32 0x30000000#32
  ∧ ∀ s : State, s.err = false → s.done = false →
    ∃ t, exec .finalize s = .next t
      ∧ (∀ a, a < s.bufcnt.toNat → Memory.read t.buf a = Memory.read s.buf a)
      ∧ Memory.read t.buf s.bufcnt.toNat = some 0x80#8
      ∧ (∀ a, s.bufcnt.toNat < a → a < (if s.bufcnt.toNat ≤ 55 then 56 else 64) → Memory.read t.buf a = some 0#8)
      ∧ (s.bufcnt.toNat ≤ 55 → ∀ i, i < 8 →
          Memory.read t.buf (56 + i) = some (BitVec.ofNat 8 (s.len.toNat / 2 ^ (8 * i))))
      ∧ (∀ a, 64 ≤ a → Memory.read t.buf a = Memory.read s.buf a)
      ∧ t = { s with
          buf := t.buf, cont := if s.bufcnt.toNat ≤ 55 then .out else .pad2, bufcnt := 0#6, seq := .loadv }

/-- R228: FINALIZE after DONE is ProtocolError(4), its near-miss words are ProtocolError(2), and then nothing else changes. -/
def Obligations.FinalizeIsRefusedByPhase : Prop :=
  (∀ s : State, s.err = false → s.done = true →
    exec .finalize s
      = .next { s with err := true, ecode := 4#4, faultLog := s.faultLog ++ [.protocolError .finalizeAfterDone] })
  ∧ ∀ (w : CommandWord) (s : State), s.host = [] → s.seq = .idle → s.cmd = some w → s.err = false →
      w.toNat / 2 ^ 28 = 3 → w ≠ 0x30000000#32 →
      step s = .next { s with
        cmd := none, err := true, ecode := 2#4, faultLog := s.faultLog ++ [.protocolError .reservedField] }

/-! ## Acceptance, errors and the lock -/

/-- R222: what the acceptance of a word does, in its order. -/
def Obligations.CommandAcceptance : Prop :=
  ∀ (s : State) (w : CommandWord), s.host = [] → s.seq = .idle → s.cmd = some w →
    (s.err = true → decodeCmd w ≠ .ok .init →
      step s = .next { s with cmd := none, faultLog := s.faultLog ++ [.refused] })
    ∧ (s.err = false → ∀ code, decodeCmd w = .error code →
      step s = .next { s with
        cmd := none, err := true, ecode := code.bits, faultLog := s.faultLog ++ [.protocolError code] })
    ∧ (s.err = false → s.done = true → ∀ d, decodeCmd w = .ok (.absorb d) →
      step s = .next { s with
        cmd := none, err := true, ecode := 3#4, faultLog := s.faultLog ++ [.protocolError .absorbAfterDone] })
    ∧ (s.err = false → s.done = true → decodeCmd w = .ok .finalize →
      step s = .next { s with
        cmd := none, err := true, ecode := 4#4, faultLog := s.faultLog ++ [.protocolError .finalizeAfterDone] })
    ∧ (decodeCmd w = .ok .init → step s = exec .init { s with cmd := none })
    ∧ (s.err = false → s.done = false → ∀ i, decodeCmd w = .ok i → step s = exec i { s with cmd := none })

/-- R264: the lock outranks every check, code 1 outranks code 2, and code 2 outranks codes 3 and 4; each word raises at most
one code. -/
def Obligations.ErrorPriority : Prop :=
  ∀ (s : State) (w : CommandWord), s.host = [] → s.seq = .idle → s.cmd = some w →
    (s.err = true → w ≠ 0x10000000#32 →
      step s = .next { s with cmd := none, faultLog := s.faultLog ++ [.refused] })
    ∧ (s.err = false → w.toNat / 2 ^ 28 ≠ 1 → w.toNat / 2 ^ 28 ≠ 2 → w.toNat / 2 ^ 28 ≠ 3 →
      step s = .next { s with
        cmd := none, err := true, ecode := 1#4, faultLog := s.faultLog ++ [.protocolError .illegalOpcode] })
    ∧ (s.err = false → (w.toNat / 2 ^ 28 = 1 ∨ w.toNat / 2 ^ 28 = 2 ∨ w.toNat / 2 ^ 28 = 3) →
      (w.toNat / 2 ^ 8 % 2 ^ 20 ≠ 0 ∨ (w.toNat / 2 ^ 28 ≠ 2 ∧ w.toNat % 2 ^ 8 ≠ 0)) →
      step s = .next { s with
        cmd := none, err := true, ecode := 2#4, faultLog := s.faultLog ++ [.protocolError .reservedField] })

/-- R262: a transition that raises an error changes ERR, ECODE and the log and nothing else but the word taken from CMD, seq
stays IDLE, it is raised only while ERR = 0, and no later transition clears the log. -/
def Obligations.ProtocolErrorsArePrecise : Prop :=
  (∀ s t : State, s.host = [] → step s = .next t → s.err = false → t.err = true →
    s.seq = .idle ∧ ∃ w code, s.cmd = some w
      ∧ t = { s with cmd := none, err := true, ecode := code.bits, faultLog := s.faultLog ++ [.protocolError code] })
  ∧ (∀ (s t : State) (code : ProtocolCode), step s = .next t → t.faultLog = s.faultLog ++ [.protocolError code] → s.err = false)
  ∧ ∀ s t : State, step s = .next t → s.faultLog <+: t.faultLog

/-- R34: while ERR = 1 every command but INIT is refused with no effect on the hardware, and only INIT and reset clear ERR. -/
def Obligations.ErrorIsSticky : Prop :=
  (∀ s t : State, step s = .next t → s.err = true → t.err = false →
    (∃ l, s.host = .assertReset :: l)
    ∨ (s.seq = .idle ∧ ∃ w, s.cmd = some w ∧ decodeCmd w = .ok .init))
  ∧ ∀ (s : State) (w : CommandWord), s.host = [] → s.seq = .idle → s.cmd = some w → s.err = true →
      decodeCmd w ≠ .ok .init → step s = .next { s with cmd := none, faultLog := s.faultLog ++ [.refused] }

/-! ## The sequencer -/

/-- The step of the machine is the meaning of the instruction at hand, on both interfaces: a command word presented at IDLE runs
once it is off CMD, and a microword of the ROM runs and then seq advances (R176, R222). -/
def Obligations.StepRunsTheDecodedInstr : Prop :=
  (∀ (s : State) (w : CommandWord) (i : Instr), s.host = [] → s.seq = .idle → s.cmd = some w → decode (.cmd32 w) = some i →
    step s = exec i { s with cmd := none })
  ∧ ∀ (s : State) (j : Fin 48) (i : Instr), s.host = [] → s.seq = .step j → decode (.uw16 (s.rom[j.val])) = some i →
    step s = andThen (exec i s) fun t =>
      .next { t with seq := if h : j.val < 47 then .step ⟨j.val + 1, by omega⟩ else .feed }

/-- R176: at STEP(i) of a block in BUF the ROM's word i decodes, its instruction completes on V and X, seq goes to STEP(i+1) or to
FEED, and H, BUF, LEN, BUFCNT, CONT and the flags are unchanged. -/
def Obligations.StepTransitionsComplete : Prop :=
  ∀ (s : State) (j : Fin 48), s.host = [] → s.seq = .step j → s.rom = stepRom →
    (∀ a, a < 64 → (Memory.read s.buf a).isSome = true) →
    ∃ i t, decodeUw (stepRom[j.val]) = .ok i ∧ exec i s = .next t
      ∧ t = { s with v := t.v }
      ∧ step s = .next { s with
          v := t.v, seq := if h : j.val < 47 then .step ⟨j.val + 1, by omega⟩ else .feed }

/-- R173, LOADV. -/
def Obligations.LoadvCopiesTheState : Prop :=
  ∀ s : State, s.host = [] → s.seq = .loadv → step s = .next { s with v := s.h, seq := .step 0 }

/-- R179, FEED: each component wraps on its own; CONT says what follows. -/
def Obligations.FeedAddsAndContinues : Prop :=
  ∀ s : State, s.host = [] → s.seq = .feed →
    step s = .next { s with
      h := { a := s.h.a + s.v.a, b := s.h.b + s.v.b, c := s.h.c + s.v.c, d := s.h.d + s.v.d }
      seq := match s.cont with
        | .none => .idle
        | .pad2 => .pad2
        | .out => .out }

/-- R107, PAD2: 56 zeros and LEN, CONT = OUT, seq = LOADV, nothing else. -/
def Obligations.Pad2LoadsTheSecondBlock : Prop :=
  ∀ s : State, s.host = [] → s.seq = .pad2 →
    ∃ t, step s = .next t
      ∧ (∀ a, a < 56 → Memory.read t.buf a = some 0#8)
      ∧ (∀ i, i < 8 → Memory.read t.buf (56 + i) = some (BitVec.ofNat 8 (s.len.toNat / 2 ^ (8 * i))))
      ∧ (∀ a, 64 ≤ a → Memory.read t.buf a = Memory.read s.buf a)
      ∧ t = { s with buf := t.buf, cont := .out, seq := .loadv }

/-- R201, R202, OUT: DIGEST byte i is bits 8(i mod 4)+7 to 8(i mod 4) of H[i div 4]; DONE is set; H is unchanged. -/
def Obligations.OutSerializesTheState : Prop :=
  ∀ s : State, s.host = [] → s.seq = .out →
    ∃ d : Vector Byte 16,
      step s = .next { s with digest := some d, done := true, seq := .idle }
      ∧ ∀ i : Fin 16,
        d[i.val] = BitVec.ofNat 8 (([s.h.a, s.h.b, s.h.c, s.h.d].getD (i.val / 4) 0#32).toNat / 2 ^ (8 * (i.val % 4)))

/-- R32: the moves of seq, one per transition of the core. -/
def Obligations.SeqMovesOnlyAsListed : Prop :=
  ∀ s t : State, s.host = [] → step s = .next t →
    match s.seq with
    | .idle => t.seq = .idle ∨ (t.seq = .loadv ∧ s.err = false ∧ s.done = false ∧ ∃ w, s.cmd = some w
        ∧ ((∃ d, decodeCmd w = .ok (.absorb d) ∧ s.bufcnt = 63#6) ∨ decodeCmd w = .ok .finalize))
    | .loadv => t.seq = .step 0
    | .step j => t.seq = if h : j.val < 47 then .step ⟨j.val + 1, by omega⟩ else .feed
    | .feed => (s.cont = .none ∧ t.seq = .idle) ∨ (s.cont = .pad2 ∧ t.seq = .pad2) ∨ (s.cont = .out ∧ t.seq = .out)
    | .pad2 => t.seq = .loadv
    | .out => t.seq = .idle

/-- R221, R274: at IDLE with no command and no host move the core keeps all its state (the model answers the same state, log
entry 7). -/
def Obligations.IdleCoreKeepsItsState : Prop :=
  ∀ s : State, s.host = [] → s.seq = .idle → s.cmd = none → step s = .next s

/-! ## Who may write what: rules over every step of the machine -/

/-- R23: only INIT, reset and FEED write H. -/
def Obligations.ChainingStateWriters : Prop :=
  ∀ s t : State, step s = .next t → t.h ≠ s.h →
    s.seq = .feed
    ∨ (s.seq = .idle ∧ t.h = iv ∧ ∃ w, s.cmd = some w ∧ decodeCmd w = .ok .init)
    ∨ (t.h = iv ∧ ∃ l, s.host = .assertReset :: l)

/-- R57, R203: only OUT gives DIGEST a value, and only INIT and reset take it away. -/
def Obligations.DigestWriters : Prop :=
  ∀ s t : State, step s = .next t → t.digest ≠ s.digest →
    (s.seq = .out ∧ t.done = true)
    ∨ (t.digest = none ∧ s.seq = .idle ∧ ∃ w, s.cmd = some w ∧ decodeCmd w = .ok .init)
    ∨ (t.digest = none ∧ ∃ l, s.host = .assertReset :: l)

/-- R177, R178: no transition but reset writes BUF from LOADV to FEED, whatever the host does, and none writes H during a STEP. -/
def Obligations.BlockIsFrozenWhileCompressed : Prop :=
  ∀ s t : State, step s = .next t → (∀ l, s.host ≠ .assertReset :: l) →
    (compressing s.seq = true → t.buf = s.buf)
    ∧ (∀ j, s.seq = .step j → t.h = s.h)

/-- R26: which transitions write BUF. A step that changes a byte of BUF is an ABSORB (and then only byte BUFCNT), a FINALIZE, a
PAD2, or reset. -/
def Obligations.BufferWriters : Prop :=
  ∀ (s t : State) (a : Nat), step s = .next t → Memory.read t.buf a ≠ Memory.read s.buf a →
    (s.seq = .idle ∧ ∃ w, s.cmd = some w
      ∧ ((∃ d, decodeCmd w = .ok (.absorb d) ∧ a = s.bufcnt.toNat)
        ∨ (decodeCmd w = .ok .finalize ∧ s.bufcnt.toNat ≤ a ∧ a < 64)))
    ∨ (s.seq = .pad2 ∧ a < 64)
    ∨ ∃ l, s.host = .assertReset :: l

/-- R65: nothing writes the step ROM. -/
def Obligations.StepRomIsNeverWritten : Prop :=
  ∀ s t : State, step s = .next t → t.rom = s.rom

/-- R38: cmd_ready is seq = IDLE; while it is 0 a presented word stays on CMD, neither lost nor refused; a word leaves CMD only in
a transition with cmd_ready = 1. (Reset is left to ResetMoveResets: what a held word becomes there is log entry 4.) -/
def Obligations.HeldCommandIsKept : Prop :=
  (∀ s : State, cmdReady s = true ↔ s.seq = .idle)
  ∧ ∀ (s t : State) (w : CommandWord), step s = .next t → (∀ l, s.host ≠ .assertReset :: l) → s.cmd = some w →
    (cmdReady s = false → t.cmd = some w ∧ t.faultLog = s.faultLog)
    ∧ (t.cmd = some w ∨ (t.cmd = none ∧ cmdReady s = true))

/-! ## Reads and reset -/

/-- R37: the bits of STATUS, and that the host reads it at any time with no effect but its own record of the value. -/
def Obligations.StatusWordLayout : Prop :=
  (∀ s : State,
    (statusWord s).getLsbD 0 = decide (s.seq ≠ .idle)
    ∧ (statusWord s).getLsbD 1 = s.done
    ∧ (statusWord s).getLsbD 2 = s.err
    ∧ (statusWord s).getLsbD 3 = false
    ∧ (∀ i, i < 4 → (statusWord s).getLsbD (4 + i) = s.ecode.getLsbD i)
    ∧ ∀ i, 8 ≤ i → (statusWord s).getLsbD i = false)
  ∧ (∀ (s : State) (l : List HostMove), s.host = .readStatus :: l →
    step s = .next { s with host := l, reads := s.reads ++ [.status (statusWord s)] })
  ∧ statusWord State.reset = 0#32

/-- R220 (c), R287: a read of DIGEST[i] while DONE = 0 is a fault; while DONE = 1, from a state that keeps the invariant, it
returns the byte with no other effect. -/
def Obligations.DigestReads : Prop :=
  (∀ (s : State) (i : Fin 16) (l : List HostMove), s.host = .readDigest i :: l → s.done = false →
    step s = .fault .digestReadWhileNotDone)
  ∧ ∀ (s : State) (i : Fin 16) (l : List HostMove), Coherent s → s.host = .readDigest i :: l → s.done = true →
    step s = .next { s with host := l, reads := s.reads ++ [.digest i (digestOf s.h)[i.val]] }

/-- R280: reset at any time, BUSY or not. The fault log keeps its entries. The value of V is the model's choice (log entry 1), and
so are the word still held on CMD (log entry 4) and what the host has read. -/
def Obligations.ResetMoveResets : Prop :=
  ∀ (s : State) (l : List HostMove), s.host = .assertReset :: l →
    ∃ t, step s = .next t
      ∧ t.h = { a := 0x67452301#32, b := 0xEFCDAB89#32, c := 0x98BADCFE#32, d := 0x10325476#32 }
      ∧ t.bufcnt = 0#6 ∧ t.len = 0#64 ∧ t.cont = .none ∧ t.seq = .idle
      ∧ t.done = false ∧ t.err = false ∧ t.ecode = 0#4
      ∧ (∀ a, Memory.read t.buf a = none) ∧ t.digest = none
      ∧ t.faultLog = s.faultLog ∧ t.rom = s.rom ∧ t.host = l ∧ t.cmd = s.cmd ∧ t.reads = s.reads

/-- R44, R281: the values the spec gives for reset (not V, log entry 1), with nothing recorded. That nothing is presented on CMD is
the model's choice (log entry 4). -/
def Obligations.ResetStateValues : Prop :=
  State.reset.h = { a := 0x67452301#32, b := 0xEFCDAB89#32, c := 0x98BADCFE#32, d := 0x10325476#32 }
  ∧ State.reset.bufcnt = 0#6 ∧ State.reset.len = 0#64 ∧ State.reset.cont = .none ∧ State.reset.seq = .idle
  ∧ State.reset.done = false ∧ State.reset.err = false ∧ State.reset.ecode = 0#4
  ∧ (∀ a, Memory.read State.reset.buf a = none) ∧ State.reset.digest = none
  ∧ State.reset.rom = stepRom ∧ State.reset.cmd = none ∧ State.reset.faultLog = []

/-! ## The invariant -/

/-- The state after reset keeps the invariant. -/
def Obligations.ResetIsCoherent : Prop := Coherent State.reset

/-- Every step from a state that keeps the invariant, whichever agent moves, leads to one that keeps it. -/
def Obligations.StepKeepsCoherent : Prop :=
  ∀ s t : State, Coherent s → step s = .next t → Coherent t

/-- R260, R246: from a state that keeps the invariant no step is refused, and the only fault is the host's read of DIGEST while
DONE = 0: no part of the MD4 computation stops. -/
def Obligations.CoherentStatesNeverStop : Prop :=
  ∀ s : State, Coherent s →
    (∃ t, step s = .next t)
    ∨ (step s = .fault .digestReadWhileNotDone ∧ s.done = false ∧ ∃ i l, s.host = .readDigest i :: l)

/-! ## Blocks, counts and the digest -/

/-- R180: from LOADV of a block in BUF, fifty transitions lead past FEED with H = compress of the entering H and the block, and
change nothing else but V and seq. -/
def Obligations.BlockTakesFiftyTransitions : Prop :=
  ∀ s : State, s.host = [] → s.seq = .loadv → s.rom = stepRom →
    (∀ a, a < 64 → (Memory.read s.buf a).isSome = true) →
    ∃ t, runSteps 50 s = .next t
      ∧ t.h = compress s.h (blockBytes s.buf)
      ∧ t.seq = (match s.cont with
        | .none => .idle
        | .pad2 => .pad2
        | .out => .out)
      ∧ t = { s with h := t.h, v := t.v, seq := t.seq }

/-- R242: an accepted command takes one transition, and the internal transitions after it are none for INIT; none for ABSORB, or
50 when it completes a block; 51 or 102 for FINALIZE; none for a refused or erroneous word. -/
def Obligations.AcceptedCommandLength : Prop :=
  ∀ (s : State) (w : CommandWord), Coherent s → s.host = [] → s.seq = .idle → s.cmd = some w →
    ∃ t, step s = .next t
    ∧ (decodeCmd w = .ok .init → IdleAfterExactly 0 t)
    ∧ (s.err = false → s.done = false → ∀ d, decodeCmd w = .ok (.absorb d) →
      IdleAfterExactly (if s.bufcnt = 63#6 then 50 else 0) t)
    ∧ (s.err = false → s.done = false → decodeCmd w = .ok .finalize →
      IdleAfterExactly (if s.bufcnt.toNat ≤ 55 then 51 else 102) t)
    ∧ (t.faultLog ≠ s.faultLog → IdleAfterExactly 0 t)

/-- R290: every BUSY period ends after at most 102 transitions of the core, after exactly as many as `transitionsLeft` says. -/
def Obligations.BusyPeriodsEnd : Prop :=
  ∀ s : State, Coherent s → s.host = [] → transitionsLeft s ≤ 102 ∧ IdleAfterExactly (transitionsLeft s) s

/-- R103: the padded length and the source's postconditions. -/
def Obligations.PaddedLength : Prop :=
  ∀ m : List Byte,
    pad m = m ++ [0x80#8] ++ List.replicate ((55 - (m.length : Int)) % 64).toNat 0#8
        ++ leBytes64 (BitVec.ofNat 64 (8 * m.length))
    ∧ (pad m).length = m.length + 9 + ((55 - (m.length : Int)) % 64).toNat
    ∧ (pad m).length % 64 = 0
    ∧ m.length + 9 ≤ (pad m).length ∧ (pad m).length ≤ m.length + 72

/-- R105: the full blocks of the message, then one tail block or two. -/
def Obligations.TailDecomposition : Prop :=
  ∀ (m : List Byte) (q r : Nat), q = m.length / 64 → r = m.length % 64 →
    (∀ i, i < q → blockOf (pad m) i = (m.drop (64 * i)).take 64)
    ∧ (r ≤ 55 → (pad m).length = 64 * (q + 1)
        ∧ blockOf (pad m) q
          = m.drop (64 * q) ++ [0x80#8] ++ zeros (55 - r) ++ leBytes64 (BitVec.ofNat 64 (8 * m.length)))
    ∧ (56 ≤ r → (pad m).length = 64 * (q + 2)
        ∧ blockOf (pad m) q = m.drop (64 * q) ++ [0x80#8] ++ zeros (63 - r)
        ∧ blockOf (pad m) (q + 1) = zeros 56 ++ leBytes64 (BitVec.ofNat 64 (8 * m.length)))

/-- R241: from any state at IDLE, INIT, an ABSORB of each byte and FINALIZE lead, when seq next reaches IDLE after FINALIZE (u is
the last busy state), to DONE = 1, no error, the digest of the message, its bit length, and the last chaining state. -/
def Obligations.CommandSequenceComputesMd4 : Prop :=
  ∀ (m : List Byte) (s : State), s.seq = .idle → s.cmd = none → s.rom = stepRom → s.host = hashScript m →
    ∃ n u t, runSteps n s = .next u ∧ u.seq ≠ .idle ∧ u.host = [] ∧ u.cmd = none
      ∧ step u = .next t ∧ t.seq = .idle
      ∧ t.done = true ∧ t.err = false ∧ t.ecode = 0#4
      ∧ t.digest.map Vector.toList = some (md4Digest m)
      ∧ t.len.toNat = 8 * m.length % 2 ^ 64
      ∧ t.h = md4State m
      ∧ t.faultLog = s.faultLog

/-- R282, R280: INIT leaves what reset leaves, except that it keeps BUF and V; from the state after reset, and after a reset that
comes at any time, the host may start with ABSORB, and the result is the same. (No word is held on CMD when the reset comes: what
would become of it is log entry 4, and the order of the host's moves is its script, log entry 3.) -/
def Obligations.SequenceAfterResetComputesMd4 : Prop :=
  (∀ s : State, exec .init s
    = .next { State.reset with
        buf := s.buf, v := s.v, rom := s.rom, cmd := s.cmd, faultLog := s.faultLog, host := s.host, reads := s.reads })
  ∧ (∀ m : List Byte, ∃ n t, runSteps n { State.reset with host := hashScriptAfterReset m } = .next t
    ∧ AtEnd t ∧ NoFaultRecorded t ∧ t.done = true ∧ t.err = false
    ∧ t.digest.map Vector.toList = some (md4Digest m))
  ∧ ∀ (m : List Byte) (s : State), s.cmd = none → s.rom = stepRom → s.host = .assertReset :: hashScriptAfterReset m →
    ∃ n t, runSteps n s = .next t
    ∧ AtEnd t ∧ t.faultLog = s.faultLog ∧ t.done = true ∧ t.err = false ∧ t.ecode = 0#4
    ∧ t.digest.map Vector.toList = some (md4Digest m)
    ∧ t.len.toNat = 8 * m.length % 2 ^ 64 ∧ t.h = md4State m

/-- R243: no state of an earlier message reaches a later digest: two cores at IDLE, whatever they did before, that are given the
same message end with the same DIGEST, H, V, LEN and STATUS. -/
def Obligations.NoCarryOverBetweenMessages : Prop :=
  ∀ (m : List Byte) (s₁ s₂ : State),
    s₁.seq = .idle → s₁.cmd = none → s₁.rom = stepRom → s₁.host = hashScript m →
    s₂.seq = .idle → s₂.cmd = none → s₂.rom = stepRom → s₂.host = hashScript m →
    ∃ n t₁ t₂, runSteps n s₁ = .next t₁ ∧ runSteps n s₂ = .next t₂ ∧ AtEnd t₁ ∧ AtEnd t₂
      ∧ t₁.digest = t₂.digest ∧ t₁.digest.isSome = true ∧ t₁.h = t₂.h ∧ t₁.v = t₂.v ∧ t₁.len = t₂.len
      ∧ statusWord t₁ = statusWord t₂

/-! ## The host's port -/

/-- R220 (a), R221: the host presents a word while none is held, and nothing else changes; while it holds one it can present no
other, and the core moves as it would with nothing to come. A yield is that same transition of the core, with the rest of the
script left. In both, a stop of the core is the step's. (The script and the yield are the model's, log entry 3.) -/
def Obligations.HostPresentsOneWordAtATime : Prop :=
  (∀ (s : State) (w : CommandWord) (l : List HostMove), s.host = .present w :: l →
    (s.cmd = none → step s = .next { s with host := l, cmd := some w })
    ∧ (s.cmd ≠ none → step s = andThen (step { s with host := [] }) fun t => .next { t with host := s.host }))
  ∧ ∀ (s : State) (l : List HostMove), s.host = .yield :: l →
    step s = andThen (step { s with host := [] }) fun t => .next { t with host := l }

/-- R204: on the 128-bit bus digest byte i is on bits 8i+7 to 8i. -/
def Obligations.DigestBusPacking : Prop :=
  ∀ (d : Vector Byte 16) (i : Fin 16), (digestBus d).extractLsb' (8 * i.val) 8 = d[i]
end

