-- ==== Sys2Proof/Laws/Encoding.lean ====
section
/-! SUPPORT. The fields of an encoded word, the fields as numbers, and the masks of the opcode table as fields. -/

namespace Sys2Proof

/-! ## Field values -/

@[simp] theorem Slot.ofBits_bits (t : Slot) : Slot.ofBits t.bits = t := by cases t <;> rfl
@[simp] theorem Slot.bits_ofBits (x : BitVec 2) : (Slot.ofBits x).bits = x := by revert x; decide

/-! ## The fields of an encoded word -/

section
variable (r : Round) (t : Slot) (k : BitVec 4) (n : BitVec 5) (o : BitVec 4) (d : Byte)

@[simp] theorem uwRnd_encodeUw : uwRnd (encodeUw r t k n) = r.bits := by
  apply BitVec.eq_of_getLsbD_eq
  intro i hi
  simp only [uwRnd, encodeUw, BitVec.getLsbD_append, BitVec.getLsbD_extractLsb']
  interval_cases i <;> simp

@[simp] theorem uwSlot_encodeUw : uwSlot (encodeUw r t k n) = t.bits := by
  apply BitVec.eq_of_getLsbD_eq
  intro i hi
  simp only [uwSlot, encodeUw, BitVec.getLsbD_append, BitVec.getLsbD_extractLsb']
  interval_cases i <;> simp

@[simp] theorem uwK_encodeUw : uwK (encodeUw r t k n) = k := by
  apply BitVec.eq_of_getLsbD_eq
  intro i hi
  simp only [uwK, encodeUw, BitVec.getLsbD_append, BitVec.getLsbD_extractLsb']
  interval_cases i <;> simp

@[simp] theorem uwRsvd_encodeUw : uwRsvd (encodeUw r t k n) = 0#3 := by
  apply BitVec.eq_of_getLsbD_eq
  intro i hi
  simp only [uwRsvd, encodeUw, BitVec.getLsbD_append, BitVec.getLsbD_extractLsb']
  interval_cases i <;> simp

@[simp] theorem uwS_encodeUw : uwS (encodeUw r t k n) = n := by
  apply BitVec.eq_of_getLsbD_eq
  intro i hi
  simp only [uwS, encodeUw, BitVec.getLsbD_append, BitVec.getLsbD_extractLsb']
  interval_cases i <;> simp

@[simp] theorem cmdOpc_encodeCmd : cmdOpc (encodeCmd o d) = o := by
  apply BitVec.eq_of_getLsbD_eq
  intro i hi
  simp only [cmdOpc, encodeCmd, BitVec.getLsbD_append, BitVec.getLsbD_extractLsb']
  interval_cases i <;> simp

@[simp] theorem cmdRsvd_encodeCmd : cmdRsvd (encodeCmd o d) = 0#20 := by
  apply BitVec.eq_of_getLsbD_eq
  intro i hi
  simp only [cmdRsvd, encodeCmd, BitVec.getLsbD_append, BitVec.getLsbD_extractLsb']
  interval_cases i <;> simp

@[simp] theorem cmdData_encodeCmd : cmdData (encodeCmd o d) = d := by
  apply BitVec.eq_of_getLsbD_eq
  intro i hi
  simp only [cmdData, encodeCmd, BitVec.getLsbD_append, BitVec.getLsbD_extractLsb']
  interval_cases i <;> simp

end

/-! ## Fields as numbers -/

/-- The UW16 fields read off the word as a number. -/
theorem uw_fields (u : Microword) :
    (uwRnd u).toNat = u.toNat / 2 ^ 14 ∧ (uwSlot u).toNat = u.toNat / 2 ^ 12 % 4 ∧ (uwK u).toNat = u.toNat / 2 ^ 8 % 16
      ∧ (uwRsvd u).toNat = u.toNat / 2 ^ 5 % 8 ∧ (uwS u).toNat = u.toNat % 32 := by
  have hu := u.isLt
  refine ⟨?_, ?_, ?_, ?_, ?_⟩ <;>
    simp only [uwRnd, uwSlot, uwK, uwRsvd, uwS, BitVec.extractLsb', BitVec.toNat_ofNat, Nat.shiftRight_eq_div_pow] <;> omega

/-- The CMD32 fields read off the word as a number. -/
theorem cmd_fields (w : CommandWord) :
    (cmdOpc w).toNat = w.toNat / 2 ^ 28 ∧ (cmdRsvd w).toNat = w.toNat / 2 ^ 8 % 2 ^ 20 ∧ (cmdData w).toNat = w.toNat % 2 ^ 8 := by
  have hw := w.isLt
  refine ⟨?_, ?_, ?_⟩ <;>
    simp only [cmdOpc, cmdRsvd, cmdData, BitVec.extractLsb', BitVec.toNat_ofNat, Nat.shiftRight_eq_div_pow] <;> omega

/-! ## The masks of the table -/

/-- The UW16 mask keeps RND and RSVD. -/
theorem uw_mask (u : Microword) : u &&& 0xC0E0#16 = ((uwRnd u ++ 0#6) ++ uwRsvd u) ++ 0#5 := by
  apply BitVec.eq_of_getLsbD_eq
  intro i hi
  simp only [uwRnd, uwRsvd, BitVec.getLsbD_and, BitVec.getLsbD_append, BitVec.getLsbD_extractLsb']
  interval_cases i <;> simp

/-- The mask of ABSORB keeps OPC and RSVD. -/
theorem absorb_mask (w : CommandWord) : w &&& 0xFFFFFF00#32 = (cmdOpc w ++ cmdRsvd w) ++ 0#8 := by
  apply BitVec.eq_of_getLsbD_eq
  intro i hi
  simp only [cmdOpc, cmdRsvd, BitVec.getLsbD_and, BitVec.getLsbD_append, BitVec.getLsbD_extractLsb']
  interval_cases i <;> simp

end Sys2Proof
end

