-- ==== Sys2Proof/Laws/Memory.lean ====
section
/-! SUPPORT. What the buffer operations do: read after write, the bytes of a multi-byte access, and the canonical form. -/

namespace Sys2Proof.Machine

@[simp] theorem Memory.read_nil (j : Nat) : Memory.read [] j = none := rfl

@[simp] theorem Memory.read_cons (a : Nat) (b : Byte) (m : Memory) (j : Nat) :
    Memory.read ((a, b) :: m) j = if a = j then some b else Memory.read m j := rfl

/-- A byte reads as what was last written there, and every other byte as before. -/
theorem Memory.read_write (m : Memory) (j : Nat) (x : Byte) (i : Nat) :
    Memory.read (Memory.write m j x) i = if i = j then some x else Memory.read m i := by
  induction m with
  | nil => simp only [Memory.write, Memory.read_cons, Memory.read_nil, eq_comm]
  | cons c m ih =>
    obtain ⟨a, b⟩ := c
    simp only [Memory.write]
    split
    · simp only [Memory.read_cons, eq_comm]
    · split
      · subst_vars
        simp only [Memory.read_cons]
        split <;> simp_all [eq_comm]
      · simp only [Memory.read_cons, ih]
        split <;> split <;> simp_all

theorem Memory.read_write_same (m : Memory) (j : Nat) (x : Byte) :
    Memory.read (Memory.write m j x) j = some x := by simp [Memory.read_write]

theorem Memory.read_write_other (m : Memory) {i j : Nat} (x : Byte) (h : i ≠ j) :
    Memory.read (Memory.write m j x) i = Memory.read m i := by simp [Memory.read_write, h]

/-- After `writeBytes m j bs`, byte i is bs[i - j] inside the stored bytes and as before outside them. -/
theorem Memory.read_writeBytes (bs : List Byte) (m : Memory) (j i : Nat) :
    Memory.read (Memory.writeBytes m j bs) i
      = if j ≤ i ∧ i < j + bs.length then bs[i - j]? else Memory.read m i := by
  induction bs generalizing m j with
  | nil => simp [Memory.writeBytes]
  | cons b bs ih =>
    simp only [Memory.writeBytes, ih, Memory.read_write, List.length_cons]
    by_cases hij : i = j
    · subst hij; simp
    · by_cases hin : j + 1 ≤ i ∧ i < j + 1 + bs.length
      · have hk : i - j = (i - (j + 1)) + 1 := by omega
        simp only [hin, if_true, and_self, show j ≤ i ∧ i < j + (bs.length + 1) by omega, hk,
          List.getElem?_cons_succ]
      · simp only [hin, if_false, hij, show ¬(j ≤ i ∧ i < j + (bs.length + 1)) by omega]

/-- `readBytes` returns exactly the bytes it covers. -/
theorem Memory.readBytes_eq_some (n : Nat) (m : Memory) (j : Nat) (bs : List Byte) :
    Memory.readBytes m j n = some bs ↔ bs.length = n ∧ ∀ i, i < n → Memory.read m (j + i) = bs[i]? := by
  induction n generalizing j bs with
  | zero =>
    simp only [Memory.readBytes, Option.some.injEq]
    constructor
    · rintro rfl
      simp
    · rintro ⟨hl, -⟩
      exact (List.length_eq_zero_iff.1 hl).symm
  | succ n ih =>
    simp only [Memory.readBytes]
    constructor
    · intro h
      cases hb : Memory.read m j with
      | none => simp [hb] at h
      | some b =>
        cases ht : Memory.readBytes m (j + 1) n with
        | none => simp [hb, ht] at h
        | some t =>
          simp only [hb, ht, Option.some.injEq] at h
          subst h
          obtain ⟨hl, hr⟩ := (ih (j + 1) t).1 ht
          refine ⟨by simp [hl], ?_⟩
          rintro (_ | i) hi
          · simpa using hb
          · have := hr i (by omega)
            simpa [Nat.add_assoc, Nat.add_comm 1 i] using this
    · rintro ⟨hl, hr⟩
      cases bs with
      | nil => simp at hl
      | cons b t =>
        have h0 : Memory.read m j = some b := by simpa using hr 0 (by omega)
        have ht : Memory.readBytes m (j + 1) n = some t := by
          refine (ih (j + 1) t).2 ⟨by simpa using hl, fun i hi => ?_⟩
          have := hr (i + 1) (by omega)
          simpa [Nat.add_assoc, Nat.add_comm 1 i] using this
        simp [h0, ht]

theorem Memory.wfFrom_mono {m : Memory} {lo lo' : Nat} (h : lo' ≤ lo) (hw : Memory.wfFrom lo m = true) :
    Memory.wfFrom lo' m = true := by
  cases m with
  | nil => rfl
  | cons c m =>
    simp only [Memory.wfFrom, Bool.and_eq_true, decide_eq_true_eq] at hw ⊢
    exact ⟨⟨by omega, hw.1.2⟩, hw.2⟩

theorem Memory.wfFrom_write {m : Memory} {lo j : Nat} (x : Byte) (hw : Memory.wfFrom lo m = true) (hlo : lo ≤ j)
    (hj : j < bufSize) : Memory.wfFrom lo (Memory.write m j x) = true := by
  induction m generalizing lo with
  | nil => simp [Memory.write, Memory.wfFrom, hlo, hj]
  | cons c m ih =>
    obtain ⟨a, b⟩ := c
    simp only [Memory.wfFrom, Bool.and_eq_true, decide_eq_true_eq] at hw
    obtain ⟨⟨ha, ha'⟩, hm⟩ := hw
    simp only [Memory.write]
    split
    · simp only [Memory.wfFrom, Bool.and_eq_true, decide_eq_true_eq]
      exact ⟨⟨hlo, hj⟩, ⟨by omega, ha'⟩, hm⟩
    · split
      · subst_vars
        simp only [Memory.wfFrom, Bool.and_eq_true, decide_eq_true_eq]
        exact ⟨⟨ha, ha'⟩, hm⟩
      · simp only [Memory.wfFrom, Bool.and_eq_true, decide_eq_true_eq]
        exact ⟨⟨ha, ha'⟩, ih hm (by omega)⟩

/-- A write inside BUF keeps the canonical form. -/
theorem Memory.wf_write {m : Memory} {j : Nat} (x : Byte) (hw : Memory.wf m = true) (hj : j < bufSize) :
    Memory.wf (Memory.write m j x) = true := Memory.wfFrom_write x hw (Nat.zero_le j) hj

theorem Memory.wf_writeBytes (bs : List Byte) {m : Memory} {j : Nat} (hw : Memory.wf m = true)
    (hj : j + bs.length ≤ bufSize) : Memory.wf (Memory.writeBytes m j bs) = true := by
  induction bs generalizing m j with
  | nil => exact hw
  | cons b bs ih =>
    simp only [List.length_cons] at hj
    exact ih (Memory.wf_write b hw (by omega)) (by omega)

/-- A value at each of n addresses from lo on is canonical while it stays inside BUF. -/
theorem Memory.wfFrom_map_range' (f : Nat → Byte) (n lo : Nat) (h : lo + n ≤ bufSize) :
    Memory.wfFrom lo ((List.range' lo n).map fun j => (j, f j)) = true := by
  induction n generalizing lo with
  | zero => rfl
  | succ n ih =>
    simp only [List.range'_succ, List.map_cons, Memory.wfFrom, Bool.and_eq_true, decide_eq_true_eq]
    exact ⟨⟨Nat.le_refl lo, by omega⟩, ih (lo + 1) (by omega)⟩

/-- The buffer with every byte filled is canonical. -/
theorem Memory.wf_fillUnwritten (m : Memory) : Memory.wf (Memory.fillUnwritten m) = true := by
  rw [Memory.wf, Memory.fillUnwritten, List.range_eq_range']
  exact Memory.wfFrom_map_range' _ _ _ (by simp)

/-- An address below the first one of a canonical memory holds no value. -/
theorem Memory.wfFrom_read_lt {m : Memory} {lo j : Nat} (hw : Memory.wfFrom lo m = true) (hj : j < lo) :
    Memory.read m j = none := by
  induction m generalizing lo with
  | nil => rfl
  | cons c m ih =>
    obtain ⟨a, b⟩ := c
    simp only [Memory.wfFrom, Bool.and_eq_true, decide_eq_true_eq] at hw
    simp only [Memory.read_cons]
    rw [if_neg (by omega)]
    exact ih hw.2 (by omega)

/-- An address outside 0..63 holds no value in a canonical memory. -/
theorem Memory.wfFrom_read_ge {m : Memory} {lo j : Nat} (hw : Memory.wfFrom lo m = true) (hj : bufSize ≤ j) :
    Memory.read m j = none := by
  induction m generalizing lo with
  | nil => rfl
  | cons c m ih =>
    obtain ⟨a, b⟩ := c
    simp only [Memory.wfFrom, Bool.and_eq_true, decide_eq_true_eq] at hw
    simp only [Memory.read_cons]
    rw [if_neg (by omega)]
    exact ih hw.2

/-- Canonical memories that read alike are the same data. -/
theorem Memory.eq_of_read {m m' : Memory} {lo : Nat} (hw : Memory.wfFrom lo m = true) (hw' : Memory.wfFrom lo m' = true)
    (h : ∀ j, Memory.read m j = Memory.read m' j) : m = m' := by
  induction m generalizing m' lo with
  | nil =>
    cases m' with
    | nil => rfl
    | cons c m' =>
      have := h c.1
      rw [Memory.read_nil, show c :: m' = (c.1, c.2) :: m' from rfl, Memory.read_cons, if_pos rfl] at this
      cases this
  | cons c m ih =>
    obtain ⟨a, b⟩ := c
    cases m' with
    | nil => simpa using h a
    | cons c' m' =>
      obtain ⟨a', b'⟩ := c'
      simp only [Memory.wfFrom, Bool.and_eq_true, decide_eq_true_eq] at hw hw'
      have hn : a = a' := by
        rcases Nat.lt_trichotomy a a' with hlt | heq | hgt
        · have := h a
          rw [Memory.read_cons, if_pos rfl, Memory.read_cons, if_neg (by omega), Memory.wfFrom_read_lt hw'.2 (by omega)] at this
          cases this
        · exact heq
        · have := h a'
          rw [Memory.read_cons, if_neg (by omega), Memory.wfFrom_read_lt hw.2 (by omega), Memory.read_cons, if_pos rfl] at this
          cases this
      subst hn
      have hb : b = b' := by simpa using h a
      subst hb
      rw [ih hw.2 hw'.2 fun j => ?_]
      rcases Nat.lt_or_ge a j with hlt | hge
      · simpa [Nat.ne_of_lt hlt] using h j
      · rw [Memory.wfFrom_read_lt hw.2 (by omega), Memory.wfFrom_read_lt hw'.2 (by omega)]

/-- MemWrite inside BUF answers the written memory. -/
theorem memWrite_next {m : Memory} {j : Nat} {v : List Byte} (h : j + v.length ≤ bufSize) :
    memWrite m j v = .next (Memory.writeBytes m j v) := if_pos h

/-- MemWrite answers next only inside BUF. -/
theorem memWrite_cases {m m' : Memory} {j : Nat} {v : List Byte} (h : memWrite m j v = .next m') :
    j + v.length ≤ bufSize ∧ m' = Memory.writeBytes m j v := by
  unfold memWrite at h
  split at h
  · next hb => cases h; exact ⟨hb, rfl⟩
  · cases h

/-- MemRead answers next exactly when the use is inside BUF and every byte holds a value. -/
theorem memRead_cases {m : Memory} {j n : Nat} {bs : List Byte} :
    memRead m j n = .next bs ↔ j + n ≤ bufSize ∧ Memory.readBytes m j n = some bs := by
  unfold memRead
  split
  · next hb => cases hr : Memory.readBytes m j n <;> simp [hb]
  · next hb => simp [hb]

end Sys2Proof.Machine
end

