-- ==== Sys2Proof/Laws/State.lean ====
section
/-! SUPPORT. One lemma per field for every named update of State, each true by rfl. -/

namespace Sys2Proof.Machine

/-! `raiseProtocolError` -/

@[simp] theorem raiseProtocolError_h (code : ProtocolCode) (s : State) : (raiseProtocolError code s).h = s.h := rfl
@[simp] theorem raiseProtocolError_v (code : ProtocolCode) (s : State) : (raiseProtocolError code s).v = s.v := rfl
@[simp] theorem raiseProtocolError_buf (code : ProtocolCode) (s : State) : (raiseProtocolError code s).buf = s.buf := rfl
@[simp] theorem raiseProtocolError_bufcnt (code : ProtocolCode) (s : State) : (raiseProtocolError code s).bufcnt = s.bufcnt := rfl
@[simp] theorem raiseProtocolError_len (code : ProtocolCode) (s : State) : (raiseProtocolError code s).len = s.len := rfl
@[simp] theorem raiseProtocolError_cont (code : ProtocolCode) (s : State) : (raiseProtocolError code s).cont = s.cont := rfl
@[simp] theorem raiseProtocolError_seq (code : ProtocolCode) (s : State) : (raiseProtocolError code s).seq = s.seq := rfl
@[simp] theorem raiseProtocolError_done (code : ProtocolCode) (s : State) : (raiseProtocolError code s).done = s.done := rfl
@[simp] theorem raiseProtocolError_err (code : ProtocolCode) (s : State) : (raiseProtocolError code s).err = true := rfl
@[simp] theorem raiseProtocolError_ecode (code : ProtocolCode) (s : State) : (raiseProtocolError code s).ecode = code.bits := rfl
@[simp] theorem raiseProtocolError_digest (code : ProtocolCode) (s : State) : (raiseProtocolError code s).digest = s.digest := rfl
@[simp] theorem raiseProtocolError_rom (code : ProtocolCode) (s : State) : (raiseProtocolError code s).rom = s.rom := rfl
@[simp] theorem raiseProtocolError_cmd (code : ProtocolCode) (s : State) : (raiseProtocolError code s).cmd = s.cmd := rfl
@[simp] theorem raiseProtocolError_faultLog (code : ProtocolCode) (s : State) : (raiseProtocolError code s).faultLog = s.faultLog ++ [.protocolError code] := rfl
@[simp] theorem raiseProtocolError_host (code : ProtocolCode) (s : State) : (raiseProtocolError code s).host = s.host := rfl
@[simp] theorem raiseProtocolError_reads (code : ProtocolCode) (s : State) : (raiseProtocolError code s).reads = s.reads := rfl

/-! `refuseCommand` -/

@[simp] theorem refuseCommand_h (s : State) : (refuseCommand s).h = s.h := rfl
@[simp] theorem refuseCommand_v (s : State) : (refuseCommand s).v = s.v := rfl
@[simp] theorem refuseCommand_buf (s : State) : (refuseCommand s).buf = s.buf := rfl
@[simp] theorem refuseCommand_bufcnt (s : State) : (refuseCommand s).bufcnt = s.bufcnt := rfl
@[simp] theorem refuseCommand_len (s : State) : (refuseCommand s).len = s.len := rfl
@[simp] theorem refuseCommand_cont (s : State) : (refuseCommand s).cont = s.cont := rfl
@[simp] theorem refuseCommand_seq (s : State) : (refuseCommand s).seq = s.seq := rfl
@[simp] theorem refuseCommand_done (s : State) : (refuseCommand s).done = s.done := rfl
@[simp] theorem refuseCommand_err (s : State) : (refuseCommand s).err = s.err := rfl
@[simp] theorem refuseCommand_ecode (s : State) : (refuseCommand s).ecode = s.ecode := rfl
@[simp] theorem refuseCommand_digest (s : State) : (refuseCommand s).digest = s.digest := rfl
@[simp] theorem refuseCommand_rom (s : State) : (refuseCommand s).rom = s.rom := rfl
@[simp] theorem refuseCommand_cmd (s : State) : (refuseCommand s).cmd = s.cmd := rfl
@[simp] theorem refuseCommand_faultLog (s : State) : (refuseCommand s).faultLog = s.faultLog ++ [.refused] := rfl
@[simp] theorem refuseCommand_host (s : State) : (refuseCommand s).host = s.host := rfl
@[simp] theorem refuseCommand_reads (s : State) : (refuseCommand s).reads = s.reads := rfl

/-! `clearProtocolError` -/

@[simp] theorem clearProtocolError_h (s : State) : (clearProtocolError s).h = s.h := rfl
@[simp] theorem clearProtocolError_v (s : State) : (clearProtocolError s).v = s.v := rfl
@[simp] theorem clearProtocolError_buf (s : State) : (clearProtocolError s).buf = s.buf := rfl
@[simp] theorem clearProtocolError_bufcnt (s : State) : (clearProtocolError s).bufcnt = s.bufcnt := rfl
@[simp] theorem clearProtocolError_len (s : State) : (clearProtocolError s).len = s.len := rfl
@[simp] theorem clearProtocolError_cont (s : State) : (clearProtocolError s).cont = s.cont := rfl
@[simp] theorem clearProtocolError_seq (s : State) : (clearProtocolError s).seq = s.seq := rfl
@[simp] theorem clearProtocolError_done (s : State) : (clearProtocolError s).done = s.done := rfl
@[simp] theorem clearProtocolError_err (s : State) : (clearProtocolError s).err = false := rfl
@[simp] theorem clearProtocolError_ecode (s : State) : (clearProtocolError s).ecode = 0#4 := rfl
@[simp] theorem clearProtocolError_digest (s : State) : (clearProtocolError s).digest = s.digest := rfl
@[simp] theorem clearProtocolError_rom (s : State) : (clearProtocolError s).rom = s.rom := rfl
@[simp] theorem clearProtocolError_cmd (s : State) : (clearProtocolError s).cmd = s.cmd := rfl
@[simp] theorem clearProtocolError_faultLog (s : State) : (clearProtocolError s).faultLog = s.faultLog := rfl
@[simp] theorem clearProtocolError_host (s : State) : (clearProtocolError s).host = s.host := rfl
@[simp] theorem clearProtocolError_reads (s : State) : (clearProtocolError s).reads = s.reads := rfl

/-! `takeCommand` -/

@[simp] theorem takeCommand_h (s : State) : (takeCommand s).h = s.h := rfl
@[simp] theorem takeCommand_v (s : State) : (takeCommand s).v = s.v := rfl
@[simp] theorem takeCommand_buf (s : State) : (takeCommand s).buf = s.buf := rfl
@[simp] theorem takeCommand_bufcnt (s : State) : (takeCommand s).bufcnt = s.bufcnt := rfl
@[simp] theorem takeCommand_len (s : State) : (takeCommand s).len = s.len := rfl
@[simp] theorem takeCommand_cont (s : State) : (takeCommand s).cont = s.cont := rfl
@[simp] theorem takeCommand_seq (s : State) : (takeCommand s).seq = s.seq := rfl
@[simp] theorem takeCommand_done (s : State) : (takeCommand s).done = s.done := rfl
@[simp] theorem takeCommand_err (s : State) : (takeCommand s).err = s.err := rfl
@[simp] theorem takeCommand_ecode (s : State) : (takeCommand s).ecode = s.ecode := rfl
@[simp] theorem takeCommand_digest (s : State) : (takeCommand s).digest = s.digest := rfl
@[simp] theorem takeCommand_rom (s : State) : (takeCommand s).rom = s.rom := rfl
@[simp] theorem takeCommand_cmd (s : State) : (takeCommand s).cmd = none := rfl
@[simp] theorem takeCommand_faultLog (s : State) : (takeCommand s).faultLog = s.faultLog := rfl
@[simp] theorem takeCommand_host (s : State) : (takeCommand s).host = s.host := rfl
@[simp] theorem takeCommand_reads (s : State) : (takeCommand s).reads = s.reads := rfl

/-! `startMessage` -/

@[simp] theorem startMessage_h (s : State) : (startMessage s).h = iv := rfl
@[simp] theorem startMessage_v (s : State) : (startMessage s).v = s.v := rfl
@[simp] theorem startMessage_buf (s : State) : (startMessage s).buf = s.buf := rfl
@[simp] theorem startMessage_bufcnt (s : State) : (startMessage s).bufcnt = 0#6 := rfl
@[simp] theorem startMessage_len (s : State) : (startMessage s).len = 0#64 := rfl
@[simp] theorem startMessage_cont (s : State) : (startMessage s).cont = .none := rfl
@[simp] theorem startMessage_seq (s : State) : (startMessage s).seq = .idle := rfl
@[simp] theorem startMessage_done (s : State) : (startMessage s).done = false := rfl
@[simp] theorem startMessage_err (s : State) : (startMessage s).err = false := rfl
@[simp] theorem startMessage_ecode (s : State) : (startMessage s).ecode = 0#4 := rfl
@[simp] theorem startMessage_digest (s : State) : (startMessage s).digest = none := rfl
@[simp] theorem startMessage_rom (s : State) : (startMessage s).rom = s.rom := rfl
@[simp] theorem startMessage_cmd (s : State) : (startMessage s).cmd = s.cmd := rfl
@[simp] theorem startMessage_faultLog (s : State) : (startMessage s).faultLog = s.faultLog := rfl
@[simp] theorem startMessage_host (s : State) : (startMessage s).host = s.host := rfl
@[simp] theorem startMessage_reads (s : State) : (startMessage s).reads = s.reads := rfl

/-! `loadV` -/

@[simp] theorem loadV_h (s : State) : (loadV s).h = s.h := rfl
@[simp] theorem loadV_v (s : State) : (loadV s).v = s.h := rfl
@[simp] theorem loadV_buf (s : State) : (loadV s).buf = s.buf := rfl
@[simp] theorem loadV_bufcnt (s : State) : (loadV s).bufcnt = s.bufcnt := rfl
@[simp] theorem loadV_len (s : State) : (loadV s).len = s.len := rfl
@[simp] theorem loadV_cont (s : State) : (loadV s).cont = s.cont := rfl
@[simp] theorem loadV_seq (s : State) : (loadV s).seq = .step 0 := rfl
@[simp] theorem loadV_done (s : State) : (loadV s).done = s.done := rfl
@[simp] theorem loadV_err (s : State) : (loadV s).err = s.err := rfl
@[simp] theorem loadV_ecode (s : State) : (loadV s).ecode = s.ecode := rfl
@[simp] theorem loadV_digest (s : State) : (loadV s).digest = s.digest := rfl
@[simp] theorem loadV_rom (s : State) : (loadV s).rom = s.rom := rfl
@[simp] theorem loadV_cmd (s : State) : (loadV s).cmd = s.cmd := rfl
@[simp] theorem loadV_faultLog (s : State) : (loadV s).faultLog = s.faultLog := rfl
@[simp] theorem loadV_host (s : State) : (loadV s).host = s.host := rfl
@[simp] theorem loadV_reads (s : State) : (loadV s).reads = s.reads := rfl

/-! `feedForward` -/

@[simp] theorem feedForward_h (s : State) : (feedForward s).h = addQuad s.h s.v := rfl
@[simp] theorem feedForward_v (s : State) : (feedForward s).v = s.v := rfl
@[simp] theorem feedForward_buf (s : State) : (feedForward s).buf = s.buf := rfl
@[simp] theorem feedForward_bufcnt (s : State) : (feedForward s).bufcnt = s.bufcnt := rfl
@[simp] theorem feedForward_len (s : State) : (feedForward s).len = s.len := rfl
@[simp] theorem feedForward_cont (s : State) : (feedForward s).cont = s.cont := rfl
@[simp] theorem feedForward_seq (s : State) : (feedForward s).seq = seqAfterFeed s.cont := rfl
@[simp] theorem feedForward_done (s : State) : (feedForward s).done = s.done := rfl
@[simp] theorem feedForward_err (s : State) : (feedForward s).err = s.err := rfl
@[simp] theorem feedForward_ecode (s : State) : (feedForward s).ecode = s.ecode := rfl
@[simp] theorem feedForward_digest (s : State) : (feedForward s).digest = s.digest := rfl
@[simp] theorem feedForward_rom (s : State) : (feedForward s).rom = s.rom := rfl
@[simp] theorem feedForward_cmd (s : State) : (feedForward s).cmd = s.cmd := rfl
@[simp] theorem feedForward_faultLog (s : State) : (feedForward s).faultLog = s.faultLog := rfl
@[simp] theorem feedForward_host (s : State) : (feedForward s).host = s.host := rfl
@[simp] theorem feedForward_reads (s : State) : (feedForward s).reads = s.reads := rfl

/-! `serializeOut` -/

@[simp] theorem serializeOut_h (s : State) : (serializeOut s).h = s.h := rfl
@[simp] theorem serializeOut_v (s : State) : (serializeOut s).v = s.v := rfl
@[simp] theorem serializeOut_buf (s : State) : (serializeOut s).buf = s.buf := rfl
@[simp] theorem serializeOut_bufcnt (s : State) : (serializeOut s).bufcnt = s.bufcnt := rfl
@[simp] theorem serializeOut_len (s : State) : (serializeOut s).len = s.len := rfl
@[simp] theorem serializeOut_cont (s : State) : (serializeOut s).cont = s.cont := rfl
@[simp] theorem serializeOut_seq (s : State) : (serializeOut s).seq = .idle := rfl
@[simp] theorem serializeOut_done (s : State) : (serializeOut s).done = true := rfl
@[simp] theorem serializeOut_err (s : State) : (serializeOut s).err = s.err := rfl
@[simp] theorem serializeOut_ecode (s : State) : (serializeOut s).ecode = s.ecode := rfl
@[simp] theorem serializeOut_digest (s : State) : (serializeOut s).digest = some (digestOf s.h) := rfl
@[simp] theorem serializeOut_rom (s : State) : (serializeOut s).rom = s.rom := rfl
@[simp] theorem serializeOut_cmd (s : State) : (serializeOut s).cmd = s.cmd := rfl
@[simp] theorem serializeOut_faultLog (s : State) : (serializeOut s).faultLog = s.faultLog := rfl
@[simp] theorem serializeOut_host (s : State) : (serializeOut s).host = s.host := rfl
@[simp] theorem serializeOut_reads (s : State) : (serializeOut s).reads = s.reads := rfl

/-! `presentWord` -/

@[simp] theorem presentWord_h (w : CommandWord) (s : State) : (presentWord w s).h = s.h := rfl
@[simp] theorem presentWord_v (w : CommandWord) (s : State) : (presentWord w s).v = s.v := rfl
@[simp] theorem presentWord_buf (w : CommandWord) (s : State) : (presentWord w s).buf = s.buf := rfl
@[simp] theorem presentWord_bufcnt (w : CommandWord) (s : State) : (presentWord w s).bufcnt = s.bufcnt := rfl
@[simp] theorem presentWord_len (w : CommandWord) (s : State) : (presentWord w s).len = s.len := rfl
@[simp] theorem presentWord_cont (w : CommandWord) (s : State) : (presentWord w s).cont = s.cont := rfl
@[simp] theorem presentWord_seq (w : CommandWord) (s : State) : (presentWord w s).seq = s.seq := rfl
@[simp] theorem presentWord_done (w : CommandWord) (s : State) : (presentWord w s).done = s.done := rfl
@[simp] theorem presentWord_err (w : CommandWord) (s : State) : (presentWord w s).err = s.err := rfl
@[simp] theorem presentWord_ecode (w : CommandWord) (s : State) : (presentWord w s).ecode = s.ecode := rfl
@[simp] theorem presentWord_digest (w : CommandWord) (s : State) : (presentWord w s).digest = s.digest := rfl
@[simp] theorem presentWord_rom (w : CommandWord) (s : State) : (presentWord w s).rom = s.rom := rfl
@[simp] theorem presentWord_cmd (w : CommandWord) (s : State) : (presentWord w s).cmd = some w := rfl
@[simp] theorem presentWord_faultLog (w : CommandWord) (s : State) : (presentWord w s).faultLog = s.faultLog := rfl
@[simp] theorem presentWord_host (w : CommandWord) (s : State) : (presentWord w s).host = s.host := rfl
@[simp] theorem presentWord_reads (w : CommandWord) (s : State) : (presentWord w s).reads = s.reads := rfl

/-! `readStatus` -/

@[simp] theorem readStatus_h (s : State) : (readStatus s).h = s.h := rfl
@[simp] theorem readStatus_v (s : State) : (readStatus s).v = s.v := rfl
@[simp] theorem readStatus_buf (s : State) : (readStatus s).buf = s.buf := rfl
@[simp] theorem readStatus_bufcnt (s : State) : (readStatus s).bufcnt = s.bufcnt := rfl
@[simp] theorem readStatus_len (s : State) : (readStatus s).len = s.len := rfl
@[simp] theorem readStatus_cont (s : State) : (readStatus s).cont = s.cont := rfl
@[simp] theorem readStatus_seq (s : State) : (readStatus s).seq = s.seq := rfl
@[simp] theorem readStatus_done (s : State) : (readStatus s).done = s.done := rfl
@[simp] theorem readStatus_err (s : State) : (readStatus s).err = s.err := rfl
@[simp] theorem readStatus_ecode (s : State) : (readStatus s).ecode = s.ecode := rfl
@[simp] theorem readStatus_digest (s : State) : (readStatus s).digest = s.digest := rfl
@[simp] theorem readStatus_rom (s : State) : (readStatus s).rom = s.rom := rfl
@[simp] theorem readStatus_cmd (s : State) : (readStatus s).cmd = s.cmd := rfl
@[simp] theorem readStatus_faultLog (s : State) : (readStatus s).faultLog = s.faultLog := rfl
@[simp] theorem readStatus_host (s : State) : (readStatus s).host = s.host := rfl
@[simp] theorem readStatus_reads (s : State) : (readStatus s).reads = s.reads ++ [.status (statusWord s)] := rfl

/-! `dropMove` -/

@[simp] theorem dropMove_h (s : State) : (dropMove s).h = s.h := rfl
@[simp] theorem dropMove_v (s : State) : (dropMove s).v = s.v := rfl
@[simp] theorem dropMove_buf (s : State) : (dropMove s).buf = s.buf := rfl
@[simp] theorem dropMove_bufcnt (s : State) : (dropMove s).bufcnt = s.bufcnt := rfl
@[simp] theorem dropMove_len (s : State) : (dropMove s).len = s.len := rfl
@[simp] theorem dropMove_cont (s : State) : (dropMove s).cont = s.cont := rfl
@[simp] theorem dropMove_seq (s : State) : (dropMove s).seq = s.seq := rfl
@[simp] theorem dropMove_done (s : State) : (dropMove s).done = s.done := rfl
@[simp] theorem dropMove_err (s : State) : (dropMove s).err = s.err := rfl
@[simp] theorem dropMove_ecode (s : State) : (dropMove s).ecode = s.ecode := rfl
@[simp] theorem dropMove_digest (s : State) : (dropMove s).digest = s.digest := rfl
@[simp] theorem dropMove_rom (s : State) : (dropMove s).rom = s.rom := rfl
@[simp] theorem dropMove_cmd (s : State) : (dropMove s).cmd = s.cmd := rfl
@[simp] theorem dropMove_faultLog (s : State) : (dropMove s).faultLog = s.faultLog := rfl
@[simp] theorem dropMove_host (s : State) : (dropMove s).host = s.host.tail := rfl
@[simp] theorem dropMove_reads (s : State) : (dropMove s).reads = s.reads := rfl

/-! `applyReset` -/

@[simp] theorem applyReset_h (s : State) : (applyReset s).h = iv := rfl
@[simp] theorem applyReset_v (s : State) :
    (applyReset s).v = { a := 0#32, b := 0#32, c := 0#32, d := 0#32 } := rfl
@[simp] theorem applyReset_buf (s : State) : (applyReset s).buf = [] := rfl
@[simp] theorem applyReset_bufcnt (s : State) : (applyReset s).bufcnt = 0#6 := rfl
@[simp] theorem applyReset_len (s : State) : (applyReset s).len = 0#64 := rfl
@[simp] theorem applyReset_cont (s : State) : (applyReset s).cont = .none := rfl
@[simp] theorem applyReset_seq (s : State) : (applyReset s).seq = .idle := rfl
@[simp] theorem applyReset_done (s : State) : (applyReset s).done = false := rfl
@[simp] theorem applyReset_err (s : State) : (applyReset s).err = false := rfl
@[simp] theorem applyReset_ecode (s : State) : (applyReset s).ecode = 0#4 := rfl
@[simp] theorem applyReset_digest (s : State) : (applyReset s).digest = none := rfl
@[simp] theorem applyReset_rom (s : State) : (applyReset s).rom = s.rom := rfl
@[simp] theorem applyReset_cmd (s : State) : (applyReset s).cmd = s.cmd := rfl
@[simp] theorem applyReset_faultLog (s : State) : (applyReset s).faultLog = s.faultLog := rfl
@[simp] theorem applyReset_host (s : State) : (applyReset s).host = s.host := rfl
@[simp] theorem applyReset_reads (s : State) : (applyReset s).reads = s.reads := rfl

end Sys2Proof.Machine
end

