-- ==== Sys2Proof/Laws/Ops.lean ====
section
/-! SUPPORT. For each shared operation and meaning, once: what it answers and everything it can do. -/

namespace Sys2Proof.Machine

/-! ## Sequencing -/

@[simp] theorem andThen_next {α β : Type} (x : α) (f : α → Result β) : andThen (.next x) f = f x := rfl
@[simp] theorem andThen_fault {α β : Type} (r : Fault) (f : α → Result β) : andThen (.fault r) f = .fault r := rfl
@[simp] theorem andThen_refused {α β : Type} (r : Refusal) (f : α → Result β) : andThen (.refused r) f = .refused r := rfl

/-- A sequence answers next exactly when both parts do. -/
theorem andThen_eq_next {α β : Type} {o : Result α} {f : α → Result β} {y : β} :
    andThen o f = .next y ↔ ∃ x, o = .next x ∧ f x = .next y := by
  cases o <;> simp

/-! ## Register selection -/

@[simp] theorem readSlot_writeSlot_same (q : Quad) (t : Slot) (x : Word) : readSlot (writeSlot q t x) t = x := by
  cases t <;> rfl

theorem readSlot_writeSlot_other (q : Quad) {t u : Slot} (x : Word) (h : u ≠ t) :
    readSlot (writeSlot q t x) u = readSlot q u := by
  cases t <;> cases u <;> first | rfl | exact absurd rfl h

/-! ## Operands -/

/-- The rotator answers for 1..31 and only there. -/
theorem rotl_next {x : Word} {n : Nat} (h : 1 ≤ n ∧ n ≤ 31) : rotl x n = .next (rotlBits x n) := if_pos h

/-- X[k] from the four bytes of BUF it views. -/
theorem blockWord_next {m : Memory} {k : BitVec 4} {b0 b1 b2 b3 : Byte}
    (h0 : Memory.read m (4 * k.toNat) = some b0) (h1 : Memory.read m (4 * k.toNat + 1) = some b1)
    (h2 : Memory.read m (4 * k.toNat + 2) = some b2) (h3 : Memory.read m (4 * k.toNat + 3) = some b3) :
    blockWord m k = .next (le32 b0 b1 b2 b3) := by
  have hr : Memory.readBytes m (4 * k.toNat) 4 = some [b0, b1, b2, b3] := by
    simp [Memory.readBytes, h0, h1, h2, h3]
  have hk := k.isLt
  have hm := (memRead_cases (m := m) (j := 4 * k.toNat) (n := 4) (bs := [b0, b1, b2, b3])).2
    ⟨by simp only [bufSize]; omega, hr⟩
  simp [blockWord, hm, le32OfBytes]

/-- X[k] exists only where its four bytes do. -/
theorem blockWord_cases {m : Memory} {k : BitVec 4} {x : Word} (h : blockWord m k = .next x) :
    ∃ b0 b1 b2 b3, Memory.read m (4 * k.toNat) = some b0 ∧ Memory.read m (4 * k.toNat + 1) = some b1
      ∧ Memory.read m (4 * k.toNat + 2) = some b2 ∧ Memory.read m (4 * k.toNat + 3) = some b3
      ∧ x = le32 b0 b1 b2 b3 := by
  obtain ⟨bs, hb, hx⟩ := andThen_eq_next.1 h
  obtain ⟨hl, hr⟩ := (Memory.readBytes_eq_some _ _ _ _).1 (memRead_cases.1 hb).2
  match bs, hl with
  | [b0, b1, b2, b3], _ =>
    have h0 := hr 0 (by omega)
    have h1 := hr 1 (by omega)
    have h2 := hr 2 (by omega)
    have h3 := hr 3 (by omega)
    cases hx
    exact ⟨b0, b1, b2, b3, h0, h1, h2, h3, rfl⟩

/-! ## The step instructions -/

/-- A step on a written block word answers next with the one register replaced. -/
theorem roundStep_next {r : Round} {t : Slot} {k : BitVec 4} {n : BitVec 5} {s : State} {x : Word} (hn : n ≠ 0#5)
    (hx : blockWord s.buf k = .next x) :
    roundStep r t k n s
      = .next { s with v := writeSlot s.v t (rotlBits (stepSum r s.v t x) n.toNat) } := by
  have hpos : 1 ≤ n.toNat := Nat.pos_of_ne_zero fun h => hn (BitVec.eq_of_toNat_eq h)
  have hlt := n.isLt
  simp [roundStep, hx, rotl_next (x := stepSum r s.v t x) ⟨hpos, by omega⟩]

/-- Everything a step can do when it answers next. -/
theorem roundStep_cases {r : Round} {t : Slot} {k : BitVec 4} {n : BitVec 5} {s s' : State}
    (h : roundStep r t k n s = .next s') :
    n ≠ 0#5 ∧ ∃ x, blockWord s.buf k = .next x
      ∧ s' = { s with v := writeSlot s.v t (rotlBits (stepSum r s.v t x) n.toNat) } := by
  obtain ⟨x, hx, h⟩ := andThen_eq_next.1 h
  obtain ⟨y, hy, h⟩ := andThen_eq_next.1 h
  cases h
  unfold rotl at hy
  split at hy
  · next hr =>
    cases hy
    exact ⟨by rintro rfl; simp at hr, x, hx, rfl⟩
  · cases hy

/-- The step instruction of a round runs that round's step. -/
@[simp] theorem exec_stepInstr (r : Round) (t : Slot) (k : BitVec 4) (n : BitVec 5) (s : State) :
    exec (r.stepInstr t k n) s = roundStep r t k n s := by cases r <;> rfl

/-! ## The command meanings -/

@[simp] theorem acceptUnlessDone_locked {code : ProtocolCode} {act : State → Result State} {s : State} (h : s.err = true) :
    acceptUnlessDone code act s = .next (refuseCommand s) := if_pos h

@[simp] theorem acceptUnlessDone_done {code : ProtocolCode} {act : State → Result State} {s : State} (he : s.err = false)
    (hd : s.done = true) : acceptUnlessDone code act s = .next (raiseProtocolError code s) := by
  simp [acceptUnlessDone, he, hd]

@[simp] theorem acceptUnlessDone_open {code : ProtocolCode} {act : State → Result State} {s : State} (he : s.err = false)
    (hd : s.done = false) : acceptUnlessDone code act s = act s := by
  simp [acceptUnlessDone, he, hd]

/-- ABSORB's action always completes. -/
theorem absorbByte_next (data : Byte) (s : State) :
    absorbByte data s
      = .next (if s.bufcnt = 63#6 then
          { s with buf := Memory.write s.buf s.bufcnt.toNat data, len := s.len + 8#64, bufcnt := 0#6, cont := .none, seq := .loadv }
        else
          { s with buf := Memory.write s.buf s.bufcnt.toNat data, len := s.len + 8#64, bufcnt := s.bufcnt + 1#6 }) := by
  have hlt := s.bufcnt.isLt
  rw [absorbByte, memWrite_next (by simp only [List.length_singleton, bufSize]; omega)]
  simp only [andThen_next, Memory.writeBytes]
  split <;> rfl

/-- The buffer PADTAIL leaves (R106): r tail bytes of m, then the padding, with the length field where it fits. -/
@[irreducible] def paddedTail (m : Memory) (r : Nat) (len : BitVec 64) : Memory :=
  let m' := Memory.writeBytes (Memory.writeBytes m r [0x80#8]) (r + 1) (zeros (63 - r))
  if r ≤ 55 then Memory.writeBytes m' 56 (leBytes64 len) else m'

@[simp] theorem length_zeros (k : Nat) : (zeros k).length = k := List.length_replicate
@[simp] theorem length_leBytes64 (x : BitVec 64) : (leBytes64 x).length = 8 := rfl
@[simp] theorem length_leBytes32 (x : Word) : (leBytes32 x).length = 4 := rfl
@[simp] theorem length_serialize (h : Quad) : (serialize h).length = 16 := rfl

/-- PADTAIL always completes. -/
theorem padTail_next (s : State) :
    padTail s = .next { s with
      buf := paddedTail s.buf s.bufcnt.toNat s.len, cont := if s.bufcnt.toNat ≤ 55 then .out else .pad2, bufcnt := 0#6, seq := .loadv } := by
  have hlt := s.bufcnt.isLt
  rw [padTail, memWrite_next (by simp only [List.length_singleton, bufSize]; omega), andThen_next,
    memWrite_next (by simp only [length_zeros, bufSize]; omega), andThen_next]
  split
  · next h =>
    rw [memWrite_next (by simp [bufSize]), andThen_next]
    simp [paddedTail, h]
  · next h => simp [paddedTail, h]

/-- The buffer PAD2 leaves (R107). -/
@[irreducible] def secondPad (m : Memory) (len : BitVec 64) : Memory :=
  Memory.writeBytes (Memory.writeBytes m 0 (zeros 56)) 56 (leBytes64 len)

/-- PAD2 always completes. -/
theorem padSecond_next (s : State) :
    padSecond s = .next { s with buf := secondPad s.buf s.len, cont := .out, seq := .loadv } := by
  rw [padSecond, memWrite_next (by simp [bufSize]), andThen_next, memWrite_next (by simp [bufSize]), andThen_next,
    secondPad]

/-- A byte of a run of zeros. -/
theorem zeros_getElem? {k i : Nat} (h : i < k) : (zeros k)[i]? = some 0#8 := by
  simp [zeros, h]

/-- Every byte of the buffer PADTAIL leaves (R106). -/
theorem read_paddedTail (m : Memory) {r : Nat} (len : BitVec 64) (hr : r < 64) (j : Nat) :
    Memory.read (paddedTail m r len) j
      = if j < r then Memory.read m j
        else if j = r then some 0x80#8
        else if r ≤ 55 ∧ 56 ≤ j ∧ j < 64 then (leBytes64 len)[j - 56]?
        else if j < 64 then some 0#8
        else Memory.read m j := by
  unfold paddedTail
  by_cases h : r ≤ 55
  · simp only [h, if_true, true_and, Memory.read_writeBytes, length_zeros, length_leBytes64, List.length_singleton]
    split_ifs <;> first | rfl | omega | exact zeros_getElem? (by omega) | (subst_vars; simp)
  · simp only [h, if_false, false_and, Memory.read_writeBytes, length_zeros, List.length_singleton]
    split_ifs <;> first | rfl | omega | exact zeros_getElem? (by omega) | (subst_vars; simp)

/-- Every byte of the buffer PAD2 leaves (R107). -/
theorem read_secondPad (m : Memory) (len : BitVec 64) (j : Nat) :
    Memory.read (secondPad m len) j
      = if j < 56 then some 0#8 else if j < 64 then (leBytes64 len)[j - 56]? else Memory.read m j := by
  simp only [secondPad, Memory.read_writeBytes, length_zeros, length_leBytes64]
  split_ifs <;> first | rfl | omega | exact zeros_getElem? (by omega)

/-- After PADTAIL every byte up to 63 holds a value when the tail's bytes did (R109). -/
theorem paddedTail_written {m : Memory} {r : Nat} (len : BitVec 64) (hr : r < 64)
    (ht : ∀ j, j < r → (Memory.read m j).isSome = true) {j : Nat} (hj : j < 64) :
    (Memory.read (paddedTail m r len) j).isSome = true := by
  rw [read_paddedTail m len hr]
  split
  · exact ht j ‹_›
  · split
    · rfl
    · split
      · rw [List.getElem?_eq_getElem (by rw [length_leBytes64]; omega)]; rfl
      · simp

/-- After PAD2 every byte up to 63 holds a value. -/
theorem secondPad_written (m : Memory) (len : BitVec 64) {j : Nat} (hj : j < 64) :
    (Memory.read (secondPad m len) j).isSome = true := by
  rw [read_secondPad]
  split
  · rfl
  · rw [List.getElem?_eq_getElem (by rw [length_leBytes64]; omega)]; rfl

/-- PADTAIL keeps the canonical form. -/
theorem wf_paddedTail {m : Memory} {r : Nat} (len : BitVec 64) (hr : r < 64) (hm : Memory.wf m = true) :
    Memory.wf (paddedTail m r len) = true := by
  have h : Memory.wf (Memory.writeBytes (Memory.writeBytes m r [0x80#8]) (r + 1) (zeros (63 - r))) = true :=
    Memory.wf_writeBytes _ (Memory.wf_writeBytes _ hm (by simp only [List.length_singleton, bufSize]; omega))
      (by simp only [length_zeros, bufSize]; omega)
  unfold paddedTail
  dsimp only
  split
  · exact Memory.wf_writeBytes _ h (by simp [bufSize])
  · exact h

/-- PAD2 keeps the canonical form. -/
theorem wf_secondPad {m : Memory} (len : BitVec 64) (hm : Memory.wf m = true) :
    Memory.wf (secondPad m len) = true := by
  unfold secondPad
  exact Memory.wf_writeBytes _ (Memory.wf_writeBytes _ hm (by simp [bufSize])) (by simp [bufSize])

end Sys2Proof.Machine
end

