-- ==== Sys2Proof/Laws/PerInstr.lean ====
section
/-! SUPPORT. Families of statements with one lemma for each constructor of Instr. -/

namespace Sys2Proof.Laws

/-- Every instruction's word lies in its own row of the opcode table (R75, R76), operands at any value. -/
def RowOfEncoding.Statement (i : Instr) : Prop := (encode i).inRow (opcodeRow i)

/-- A step's word under the UW16 mask shows its round alone. -/
theorem encodeUw_mask (r : Round) (t : Slot) (k : BitVec 4) (n : BitVec 5) :
    (encodeUw r t k n).toNat &&& 0xC0E0 = ((r.bits ++ 0#14 : BitVec 16)).toNat := by
  have h := congrArg BitVec.toNat (uw_mask (encodeUw r t k n))
  rw [uwRnd_encodeUw, uwRsvd_encodeUw] at h
  rw [BitVec.toNat_and] at h
  rw [show (0xC0E0 : Nat) = (0xC0E0#16).toNat from rfl, h]
  cases r <;> rfl

theorem RowOfEncoding.init : RowOfEncoding.Statement .init := ⟨rfl, by decide⟩

theorem RowOfEncoding.absorb (data : Byte) : RowOfEncoding.Statement (.absorb data) := by
  refine ⟨rfl, ?_⟩
  have h := congrArg BitVec.toNat (absorb_mask (encodeCmd 2#4 data))
  rw [cmdOpc_encodeCmd, cmdRsvd_encodeCmd, BitVec.toNat_and] at h
  exact h

theorem RowOfEncoding.finalize : RowOfEncoding.Statement .finalize := ⟨rfl, by decide⟩

theorem RowOfEncoding.stepF (t : Slot) (k : BitVec 4) (n : BitVec 5) : RowOfEncoding.Statement (.stepF t k n) :=
  ⟨rfl, encodeUw_mask .r1 t k n⟩

theorem RowOfEncoding.stepG (t : Slot) (k : BitVec 4) (n : BitVec 5) : RowOfEncoding.Statement (.stepG t k n) :=
  ⟨rfl, encodeUw_mask .r2 t k n⟩

theorem RowOfEncoding.stepH (t : Slot) (k : BitVec 4) (n : BitVec 5) : RowOfEncoding.Statement (.stepH t k n) :=
  ⟨rfl, encodeUw_mask .r3 t k n⟩

end Sys2Proof.Laws
end

