-- ==== Sys2Proof/Laws/Step.lean ====
section
/-! SUPPORT. What one transition of the core and one step of the machine can do, once, for every later proof to cite. -/

namespace Sys2Proof.Machine

/-- An instruction that decode_cmd gives is a host command. -/
theorem decodeCmd_cases {w : CommandWord} {i : Instr} (h : decodeCmd w = .ok i) :
    i = .init ∨ i = .absorb (cmdData w) ∨ i = .finalize := by
  unfold decodeCmd at h
  split at h
  · cases h
  split at h
  · cases h
  split at h
  · cases h
  split at h
  · cases h; exact .inl rfl
  split at h
  · cases h; exact .inr (.inl rfl)
  · cases h; exact .inr (.inr rfl)

/-- An illegal word is illegal with code 1 or 2 (R75). -/
theorem decodeCmd_error {w : CommandWord} {c : ProtocolCode} (h : decodeCmd w = .error c) :
    c = .illegalOpcode ∨ c = .reservedField := by
  unfold decodeCmd at h
  split at h
  · cases h; exact .inl rfl
  split at h
  · cases h; exact .inr rfl
  split at h
  · cases h; exact .inr rfl
  split at h
  · cases h
  split at h
  · cases h
  · cases h

/-- An instruction that decode_uw gives is a step, with a rotate amount that is not 0. -/
theorem decodeUw_cases {u : Microword} {i : Instr} (h : decodeUw u = .ok i) :
    ∃ r, i = Round.stepInstr r (Slot.ofBits (uwSlot u)) (uwK u) (uwS u) ∧ uwS u ≠ 0#5 ∧ uwRnd u = r.bits := by
  unfold decodeUw at h
  split at h
  · cases h
  split at h
  · cases h
  split at h
  · cases h
  next h3 _ hs =>
  split at h
  · next h0 => cases h; exact ⟨.r1, rfl, hs, h0⟩
  split at h
  · next h1 => cases h; exact ⟨.r2, rfl, hs, h1⟩
  · next h0 h1 =>
    cases h
    refine ⟨.r3, rfl, hs, ?_⟩
    revert h0 h1 h3
    generalize uwRnd u = x
    revert x
    decide

/-- What the core can do in one transition, each with what it leads to (R221). -/
inductive CoreMove (s : State) : State → Prop where
  /-- At IDLE with no command: nothing. -/
  | quiet (hq : s.seq = .idle) (hc : s.cmd = none) : CoreMove s s
  /-- INIT. -/
  | init (w : CommandWord) (hq : s.seq = .idle) (hc : s.cmd = some w) (hd : decodeCmd w = .ok .init) :
      CoreMove s (startMessage (takeCommand s))
  /-- Any other word under the error lock. -/
  | locked (w : CommandWord) (hq : s.seq = .idle) (hc : s.cmd = some w) (hd : decodeCmd w ≠ .ok .init) (he : s.err = true) :
      CoreMove s (refuseCommand (takeCommand s))
  /-- An illegal word. -/
  | illegal (w : CommandWord) (code : ProtocolCode) (hq : s.seq = .idle) (hc : s.cmd = some w)
      (hd : decodeCmd w = .error code) (he : s.err = false) : CoreMove s (raiseProtocolError code (takeCommand s))
  /-- ABSORB after DONE. -/
  | absorbLate (w : CommandWord) (data : Byte) (hq : s.seq = .idle) (hc : s.cmd = some w)
      (hd : decodeCmd w = .ok (.absorb data)) (he : s.err = false) (hn : s.done = true) :
      CoreMove s (raiseProtocolError .absorbAfterDone (takeCommand s))
  /-- FINALIZE after DONE. -/
  | finalizeLate (w : CommandWord) (hq : s.seq = .idle) (hc : s.cmd = some w)
      (hd : decodeCmd w = .ok .finalize) (he : s.err = false) (hn : s.done = true) :
      CoreMove s (raiseProtocolError .finalizeAfterDone (takeCommand s))
  /-- ABSORB of a byte that leaves the block open. -/
  | absorbOpen (w : CommandWord) (data : Byte) (hq : s.seq = .idle) (hc : s.cmd = some w)
      (hd : decodeCmd w = .ok (.absorb data)) (he : s.err = false) (hn : s.done = false) (hb : s.bufcnt ≠ 63#6) :
      CoreMove s { takeCommand s with
        buf := Memory.write s.buf s.bufcnt.toNat data, len := s.len + 8#64, bufcnt := s.bufcnt + 1#6 }
  /-- ABSORB of a byte that completes a block. -/
  | absorbFull (w : CommandWord) (data : Byte) (hq : s.seq = .idle) (hc : s.cmd = some w)
      (hd : decodeCmd w = .ok (.absorb data)) (he : s.err = false) (hn : s.done = false) (hb : s.bufcnt = 63#6) :
      CoreMove s { takeCommand s with
        buf := Memory.write s.buf s.bufcnt.toNat data, len := s.len + 8#64, bufcnt := 0#6, cont := .none, seq := .loadv }
  /-- FINALIZE. -/
  | finalize (w : CommandWord) (hq : s.seq = .idle) (hc : s.cmd = some w) (hd : decodeCmd w = .ok .finalize)
      (he : s.err = false) (hn : s.done = false) :
      CoreMove s { takeCommand s with
        buf := paddedTail s.buf s.bufcnt.toNat s.len, cont := if s.bufcnt.toNat ≤ 55 then .out else .pad2, bufcnt := 0#6, seq := .loadv }
  /-- LOADV. -/
  | loadv (hq : s.seq = .loadv) : CoreMove s (loadV s)
  /-- STEP(i). -/
  | step (i : Fin 48) (r : Round) (t : Slot) (k : BitVec 4) (n : BitVec 5) (x : Word) (hq : s.seq = .step i)
      (hd : decodeUw (fetchMicroword s i) = .ok (r.stepInstr t k n)) (hx : blockWord s.buf k = .next x) :
      CoreMove s { s with
        v := writeSlot s.v t (rotlBits (stepSum r s.v t x) n.toNat), seq := seqAfterStep i }
  /-- FEED. -/
  | feed (hq : s.seq = .feed) : CoreMove s (feedForward s)
  /-- PAD2. -/
  | pad2 (hq : s.seq = .pad2) :
      CoreMove s { s with buf := secondPad s.buf s.len, cont := .out, seq := .loadv }
  /-- OUT. -/
  | out (hq : s.seq = .out) : CoreMove s (serializeOut s)

/-- A command word's acceptance is one of the command moves. -/
theorem acceptWord_move {w : CommandWord} {s t : State} (hq : s.seq = .idle) (hc : s.cmd = some w)
    (h : acceptWord w s = .next t) : CoreMove s t := by
  unfold acceptWord at h
  cases hd : decodeCmd w with
  | error code =>
    simp only [hd, Host.Outcome.next.injEq] at h
    subst h
    unfold rejectWord
    split
    · next he => exact .locked w hq hc (by simp [hd]) (by simpa using he)
    · next he => exact .illegal w code hq hc hd (by simpa using he)
  | ok i =>
    simp only [hd] at h
    rcases decodeCmd_cases hd with rfl | rfl | rfl
    · cases h; exact .init w hq hc hd
    · simp only [exec, execAbsorb, acceptUnlessDone, takeCommand_err, takeCommand_done] at h
      cases he : s.err with
      | true => simp only [he, if_true, Host.Outcome.next.injEq] at h; subst h; exact .locked w hq hc (by simp [hd]) he
      | false =>
        simp only [he, Bool.false_eq_true, if_false] at h
        cases hn : s.done with
        | true => simp only [hn, if_true, Host.Outcome.next.injEq] at h; subst h; exact .absorbLate w _ hq hc hd he hn
        | false =>
          simp only [hn, Bool.false_eq_true, if_false] at h
          rw [absorbByte_next] at h
          cases h
          split
          · next hb => exact .absorbFull w _ hq hc hd he hn hb
          · next hb => exact .absorbOpen w _ hq hc hd he hn hb
    · simp only [exec, execFinalize, acceptUnlessDone, takeCommand_err, takeCommand_done] at h
      cases he : s.err with
      | true => simp only [he, if_true, Host.Outcome.next.injEq] at h; subst h; exact .locked w hq hc (by simp [hd]) he
      | false =>
        simp only [he, Bool.false_eq_true, if_false] at h
        cases hn : s.done with
        | true => simp only [hn, if_true, Host.Outcome.next.injEq] at h; subst h; exact .finalizeLate w hq hc hd he hn
        | false =>
          simp only [hn, Bool.false_eq_true, if_false] at h
          rw [padTail_next] at h
          cases h
          exact .finalize w hq hc hd he hn

/-- Every transition of the core is one of its moves. -/
theorem coreTransition_move {s t : State} (h : coreTransition s = .next t) : CoreMove s t := by
  unfold coreTransition at h
  cases hq : s.seq with
  | idle =>
    simp only [hq] at h
    cases hc : s.cmd with
    | none => simp only [hc, Host.Outcome.next.injEq] at h; subst h; exact .quiet hq hc
    | some w => simp only [hc] at h; exact acceptWord_move hq hc h
  | loadv => simp only [hq, Host.Outcome.next.injEq] at h; subst h; exact .loadv hq
  | feed => simp only [hq, Host.Outcome.next.injEq] at h; subst h; exact .feed hq
  | out => simp only [hq, Host.Outcome.next.injEq] at h; subst h; exact .out hq
  | pad2 =>
    simp only [hq, padSecond_next, Host.Outcome.next.injEq] at h
    subst h
    exact .pad2 hq
  | step i =>
    simp only [hq, stepTransition] at h
    cases hd : decodeUw (fetchMicroword s i) with
    | error why => simp [hd] at h
    | ok ins =>
      simp only [hd] at h
      obtain ⟨r, rfl, -, -⟩ := decodeUw_cases hd
      rw [exec_stepInstr] at h
      obtain ⟨u, hu, h⟩ := andThen_eq_next.1 h
      obtain ⟨-, x, hx, rfl⟩ := roundStep_cases hu
      cases h
      exact .step i r _ _ _ x hq hd hx

/-- What the machine can do in one step: the core moves, with or without a yield taken off the script, or the host does. -/
inductive MachineMove (s : State) : State → Prop where
  /-- The core moves: no script, or a word that must wait for a held one. -/
  | core (t : State) (hh : s.host = [] ∨ ∃ w l, s.host = .present w :: l ∧ s.cmd ≠ none) (hm : CoreMove s t) : MachineMove s t
  /-- The script lets the core move. -/
  | yield (t : State) (l : List HostMove) (hh : s.host = .yield :: l) (hm : CoreMove (dropMove s) t) : MachineMove s t
  /-- The host presents a word. -/
  | present (w : CommandWord) (l : List HostMove) (hh : s.host = .present w :: l) (hc : s.cmd = none) :
      MachineMove s (presentWord w (dropMove s))
  /-- The host reads STATUS. -/
  | status (l : List HostMove) (hh : s.host = .readStatus :: l) : MachineMove s (readStatus (dropMove s))
  /-- The host reads DIGEST[i] while DONE = 1. -/
  | digest (i : Fin 16) (d : Vector Byte 16) (l : List HostMove) (hh : s.host = .readDigest i :: l) (hn : s.done = true)
      (hd : s.digest = some d) : MachineMove s { dropMove s with reads := s.reads ++ [.digest i d[i]] }
  /-- The host asserts reset. -/
  | reset (l : List HostMove) (hh : s.host = .assertReset :: l) : MachineMove s (applyReset (dropMove s))

/-- Every step of the machine is one of its moves. -/
theorem step_move {s t : State} (h : step s = .next t) : MachineMove s t := by
  unfold step machineStep at h
  cases hh : s.host with
  | nil => simp only [hh] at h; exact .core t (.inl hh) (coreTransition_move h)
  | cons mv l =>
    cases mv with
    | yield => simp only [hh] at h; exact .yield t l hh (coreTransition_move h)
    | present w =>
      simp only [hh] at h
      split at h
      · next hc => cases h; exact .present w l hh hc
      · next hc => exact .core t (.inr ⟨w, l, hh, hc⟩) (coreTransition_move h)
    | readStatus => simp only [hh, Host.Outcome.next.injEq] at h; subst h; exact .status l hh
    | readDigest i =>
      simp only [hh, readDigest, dropMove_done, dropMove_digest] at h
      split at h
      · next d hn hd => cases h; exact .digest i d l hh hn hd
      · cases h
    | assertReset => simp only [hh, Host.Outcome.next.injEq] at h; subst h; exact .reset l hh

/-- The core never looks at the host's script and never changes it, whether it goes on or stops (R221). -/
theorem coreTransition_host (s : State) :
    coreTransition s = andThen (coreTransition { s with host := [] }) fun t => .next { t with host := s.host } := by
  obtain ⟨h', v, buf, bufcnt, len, cont, seq, done, err, ecode, digest, rom, cmd, faultLog, host, reads⟩ := s
  unfold coreTransition
  cases seq with
  | idle =>
    cases cmd with
    | none => rfl
    | some w =>
      simp only [acceptWord]
      cases hd : decodeCmd w with
      | error c => cases err <;> rfl
      | ok i =>
        simp only
        rcases decodeCmd_cases hd with rfl | rfl | rfl
        · rfl
        · cases err
          · cases done
            · simp only [exec, execAbsorb, acceptUnlessDone, takeCommand, Bool.false_eq_true, if_false, absorbByte_next, andThen_next]
              split <;> rfl
            · rfl
          · rfl
        · cases err
          · cases done
            · simp only [exec, execFinalize, acceptUnlessDone, takeCommand, Bool.false_eq_true, if_false, padTail_next, andThen_next]
            · rfl
          · rfl
  | loadv => rfl
  | feed => rfl
  | pad2 => simp only [padSecond_next, andThen_next]
  | out => rfl
  | step i =>
    simp only [stepTransition, fetchMicroword]
    cases hd : decodeUw rom[i.val] with
    | error e => rfl
    | ok ins =>
      simp only
      obtain ⟨r, rfl, hn, -⟩ := decodeUw_cases hd
      simp only [exec_stepInstr, roundStep]
      cases blockWord buf (uwK rom[i.val]) with
      | next x =>
        simp only [andThen_next]
        cases rotl (stepSum r v (Slot.ofBits (uwSlot rom[i.val])) x) (uwS rom[i.val]).toNat <;> rfl
      | fault f => rfl
      | refused f => rfl

/-- With no script the step is the core's transition. -/
theorem step_of_no_script {s : State} (h : s.host = []) : step s = coreTransition s := by
  simp [step, machineStep, h]

end Sys2Proof.Machine
end

