-- ==== Sys2Proof/Laws/Runs.lean ====
section
/-! SUPPORT. Runs of several steps, the core's turn, and a whole block in BUF as words. -/

namespace Sys2Proof.Machine

theorem runSteps_succ (n : Nat) (s : State) : runSteps (n + 1) s = andThen (step s) (runSteps n) := rfl

/-- A run of n + m steps is a run of n followed by a run of m. -/
theorem runSteps_add (n m : Nat) (s : State) : runSteps (n + m) s = andThen (runSteps n s) (runSteps m) := by
  induction n generalizing s with
  | zero => simp [runSteps]
  | succ n ih =>
    rw [show n + 1 + m = (n + m) + 1 by omega, runSteps_succ, runSteps_succ]
    cases step s with
    | next t => exact ih t
    | fault r => rfl
    | refused r => rfl

/-- It is the core's turn: the script is empty, or the word it presents next must wait for a held one. -/
def CoreTurn (s : State) : Prop := s.host = [] ∨ ∃ w l, s.host = .present w :: l ∧ s.cmd ≠ none

theorem step_of_coreTurn {s : State} (h : CoreTurn s) : step s = coreTransition s := by
  rcases h with h | ⟨w, l, h, hc⟩
  · exact step_of_no_script h
  · simp [step, machineStep, h, hc]

/-- The core never changes the host's script. -/
theorem CoreMove.host_eq {s t : State} (h : CoreMove s t) : t.host = s.host := by cases h <;> rfl

/-- Word k of a block in BUF is word k of the block's bytes (R121). -/
theorem blockWord_of_full {m : Memory} (hf : ∀ a, a < 64 → (Memory.read m a).isSome = true) {k : Nat} (hk : k < 16) :
    blockWord m (BitVec.ofNat 4 k) = .next (wordOfBlock (blockBytes m) k) := by
  have e : (BitVec.ofNat 4 k).toNat = k := by simp only [BitVec.toNat_ofNat]; omega
  have g : ∀ j, j < 64 → Memory.read m j = some ((Memory.read m j).getD 0#8) := by
    intro j hj
    obtain ⟨b, hb⟩ := Option.isSome_iff_exists.1 (hf j hj)
    rw [hb]; rfl
  have d : ∀ c, c < 4 → (((blockBytes m).drop (4 * k)).getD c 0#8) = (Memory.read m (4 * k + c)).getD 0#8 := by
    intro c hc
    simp only [List.getD_eq_getElem?_getD, blockBytes, List.getElem?_drop, List.getElem?_map]
    rw [List.getElem?_range (by omega)]
    rfl
  rw [blockWord_next (by rw [e]; exact g _ (by omega)) (by rw [e]; exact g _ (by omega)) (by rw [e]; exact g _ (by omega))
    (by rw [e]; exact g _ (by omega)), wordOfBlock, le32OfBytes, d 0 (by omega), d 1 (by omega), d 2 (by omega), d 3 (by omega)]
  rfl

end Sys2Proof.Machine
end

