-- ==== Sys2Proof/Tests/Slice0.lean ====
section
/-! SUPPORT. Tests whose expected values come from spec/ (each comment names the place), and one witness or more for every statement
that has hypotheses. -/

namespace Sys2Proof.Tests

open Sys2Proof.Machine

/-! ## Helpers -/

/-- A part of what an outcome leads to. -/
def seen {σ α : Type} (f : σ → α) : Result σ → Option α
  | .next t => some (f t)
  | .fault _ => none
  | .refused _ => none

/-- A buffer that holds these bytes from address 0 on. -/
def bufOf (bs : List Byte) : Memory := Memory.writeBytes [] 0 bs

/-- A buffer whose 64 bytes all hold this value. -/
def fullBuf (b : Byte) : Memory := bufOf (List.replicate 64 b)

/-- The state after reset with V and BUF chosen. -/
def engine (v : Quad) (m : Memory) : State := { State.reset with v := v, buf := m }

/-- Four words that are all x. -/
def allWords (x : Word) : Quad := { a := x, b := x, c := x, d := x }

/-- The state after reset with a word on CMD. -/
def offering (w : CommandWord) : State := { State.reset with cmd := some w }

/-- The state after reset in the middle of a block of n bytes, with a word on CMD. -/
def absorbing (n : BitVec 6) (w : CommandWord) : State :=
  { offering w with buf := fullBuf 0x61#8, bufcnt := n, len := BitVec.ofNat 64 (8 * n.toNat) }

/-- The state after reset with a full buffer, at a sequencer state. -/
def atSeq (q : Seq) : State := { State.reset with seq := q, buf := fullBuf 0#8 }

/-- A finished message at IDLE. -/
def finished : State := { State.reset with done := true, cont := .out, digest := some (digestOf iv) }

/-! ## WellFormed refuses what it should (R72, R76: S = 0 is reserved) -/

theorem test_stepF_rotate_zero_ill_formed : (Instr.stepF .a 0#4 0#5).wellFormed = false := by decide
theorem test_stepG_rotate_zero_ill_formed : (Instr.stepG .b 7#4 0#5).wellFormed = false := by decide
theorem test_stepH_rotate_zero_ill_formed : (Instr.stepH .d 15#4 0#5).wellFormed = false := by decide
theorem test_rotate_bounds_well_formed :
    (Instr.stepF .a 0#4 1#5).wellFormed = true ∧ (Instr.stepH .d 15#4 31#5).wellFormed = true := by decide

/-! ## Decoding: words of spec/95_test_vectors.md 2.6 and spec/43_compressor.md R171 -/

theorem test_decode_init : decodeTableWord 32 0x10000000 = some .init := by decide
theorem test_decode_absorb : decodeTableWord 32 0x20000061 = some (.absorb 0x61#8) := by decide
theorem test_decode_absorb_data_bits : decodeTableWord 32 0x200000A5 = some (.absorb 0xA5#8) := by decide
theorem test_decode_finalize : decodeTableWord 32 0x30000000 = some .finalize := by decide
/-- R171 word 3: STEP_F b, X[3], 19. -/
theorem test_decode_stepF : decodeTableWord 16 0x1313 = some (.stepF .b 3#4 19#5) := by decide
/-- R82: STEP_G d, X[4], 5 is 0x7405. -/
theorem test_decode_stepG : decodeTableWord 16 0x7405 = some (.stepG .d 4#4 5#5) := by decide
/-- R171 word 34: STEP_H c, X[4], 11. -/
theorem test_decode_stepH : decodeTableWord 16 0xA40B = some (.stepH .c 4#4 11#5) := by decide
theorem test_decode_illegal_opcode :
    decodeCmd 0x00000000#32 = .error .illegalOpcode ∧ decodeCmd 0x40000000#32 = .error .illegalOpcode
      ∧ decodeCmd 0xF0000000#32 = .error .illegalOpcode := by decide
theorem test_decode_reserved_field :
    decodeCmd 0x10000001#32 = .error .reservedField ∧ decodeCmd 0x30000100#32 = .error .reservedField
      ∧ decodeCmd 0x20000161#32 = .error .reservedField ∧ decodeCmd 0x2FF00061#32 = .error .reservedField := by decide
/-- R76: RND = 3, a bit of 7:5, S = 0. -/
theorem test_decode_reserved_microwords :
    decodeUw 0xC003#16 = .error .round ∧ decodeUw 0x0023#16 = .error .bits ∧ decodeUw 0x4000#16 = .error .rotate := by decide
theorem test_decode_longer_than_any : decodeTableWord 48 0x10000000 = none := by decide

/-! ## The assembler (R80, R81, R82) -/

theorem test_assemble_commands :
    assembleWords "INIT".toList = some [.cmd32 0x10000000#32]
      ∧ assembleWords "ABSORB 0x61".toList = some [.cmd32 0x20000061#32]
      ∧ assembleWords "ABSORB 97".toList = some [.cmd32 0x20000061#32]
      ∧ assembleWords "ABSORB 'a'".toList = some [.cmd32 0x20000061#32]
      ∧ assembleWords "FINALIZE".toList = some [.cmd32 0x30000000#32] := by decide
theorem test_assemble_strings :
    assembleWords "ABSORBS \"\"".toList = some []
      ∧ assembleWords "HASH \"ab\"".toList
        = some [.cmd32 0x10000000#32, .cmd32 0x20000061#32, .cmd32 0x20000062#32, .cmd32 0x30000000#32] := by decide
theorem test_assemble_step : assembleWords "STEP_G d, X[4], 5".toList = some [.uw16 0x7405#16] := by decide

/-! ## Operands and functional units: spec/95_test_vectors.md 2.2 and 2.3 -/

theorem test_le32 : le32 0x61#8 0x62#8 0x63#8 0x80#8 = 0x80636261#32 := by decide
theorem test_leBytes32 : leBytes32 0x67452301#32 = [0x01#8, 0x23#8, 0x45#8, 0x67#8] := by decide
theorem test_leBytes64 : leBytes64 0x200#64 = [0x00#8, 0x02#8, 0#8, 0#8, 0#8, 0#8, 0#8, 0#8] := by decide
theorem test_mixers_high_bits :
    mixF 0xFFFFFFFF#32 0x12345678#32 0x9ABCDEF0#32 = 0x12345678#32
      ∧ mixG 0xFFFFFFFF#32 0x12345678#32 0x9ABCDEF0#32 = 0x9ABCDEF8#32
      ∧ mixH 0xFFFFFFFF#32 0x12345678#32 0x9ABCDEF0#32 = 0x77777777#32 := by decide
theorem test_mixers_patterns :
    mixF 0xF0F0F0F0#32 0xFF00FF00#32 0x0FF00FF0#32 = 0xFF00FF00#32
      ∧ mixG 0xF0F0F0F0#32 0xFF00FF00#32 0x0FF00FF0#32 = 0xFFF0FFF0#32
      ∧ mixH 0xF0F0F0F0#32 0xFF00FF00#32 0x0FF00FF0#32 = 0x00000000#32 := by decide
theorem test_rotl :
    seen id (rotl 0x80000000#32 1) = some 0x00000001#32 ∧ seen id (rotl 0x12345678#32 3) = some 0x91A2B3C0#32
      ∧ seen id (rotl 0x80000001#32 31) = some 0xC0000000#32 ∧ seen id (rotl 0xDEADBEEF#32 7) = some 0x56DF77EF#32
      ∧ seen id (rotl 0x12345678#32 0) = none ∧ seen id (rotl 0x12345678#32 32) = none := by decide

/-! ## The step instructions: spec/95_test_vectors.md 2.3 -/

/-- Step 1 of the empty message: STEP_F d, X[1], 7. -/
theorem test_stepF_trace :
    seen State.v (exec (.stepF .d 1#4 7#5) (engine
      { a := 0x000003F8#32, b := 0xEFCDAB89#32, c := 0x98BADCFE#32, d := 0x10325476#32 } (fullBuf 0#8)))
      = some { a := 0x000003F8#32, b := 0xEFCDAB89#32, c := 0x98BADCFE#32, d := 0x769A0254#32 } := by decide
/-- All ones: the sum wraps twice. -/
theorem test_stepF_all_ones :
    seen State.v (exec (.stepF .a 0#4 3#5) (engine (allWords 0xFFFFFFFF#32) (fullBuf 0xFF#8)))
      = some { allWords 0xFFFFFFFF#32 with a := 0xFFFFFFEF#32 } := by decide
/-- Step 16 of the empty message: STEP_G a, X[0], 3. -/
theorem test_stepG_trace :
    seen State.v (exec (.stepG .a 0#4 3#5) (engine
      { a := 0xADDCB303#32, b := 0x3665F296#32, c := 0x8EE8F245#32, d := 0xA483A664#32 } (bufOf [0x80#8, 0#8, 0#8, 0#8])))
      = some { a := 0x7A08FB05#32, b := 0x3665F296#32, c := 0x8EE8F245#32, d := 0xA483A664#32 } := by decide
theorem test_stepG_all_ones :
    seen State.v (exec (.stepG .c 15#4 5#5) (engine (allWords 0xFFFFFFFF#32) (fullBuf 0xFF#8)))
      = some { allWords 0xFFFFFFFF#32 with c := 0x504F32CB#32 } := by decide
/-- Step 32 of the empty message: STEP_H a, X[0], 3. -/
theorem test_stepH_trace :
    seen State.v (exec (.stepH .a 0#4 3#5) (engine
      { a := 0x374891BF#32, b := 0x6F952B2E#32, c := 0xB49A4DAE#32, d := 0x0A15C329#32 } (bufOf [0x80#8, 0#8, 0#8, 0#8])))
      = some { a := 0xB9E91C4B#32, b := 0x6F952B2E#32, c := 0xB49A4DAE#32, d := 0x0A15C329#32 } := by decide
theorem test_stepH_all_ones :
    seen State.v (exec (.stepH .b 7#4 9#5) (engine (allWords 0xFFFFFFFF#32) (fullBuf 0xFF#8)))
      = some { allWords 0xFFFFFFFF#32 with b := 0xB3D73CDD#32 } := by decide

/-! ## The commands: spec/45_host_commands.md and spec/95_test_vectors.md 2.1, 2.6 -/

/-- R224: STATUS is 0 and H the IV after INIT, also from the error lock. -/
theorem test_init_clears_the_lock :
    seen (fun t => (statusWord t, t.h, t.digest)) (exec .init { finished with err := true, ecode := 3#4, h := allWords 0#32 })
      = some (0#32, iv, none) := by decide
theorem test_init_keeps_buf :
    seen (fun t => (Memory.read t.buf 0, t.bufcnt, t.len)) (exec .init (absorbing 5#6 0x10000000#32))
      = some (some 0x61#8, 0#6, 0#64) := by decide
/-- R226's example: after INIT, ABSORB 0x61. -/
theorem test_absorb_first_byte :
    seen (fun t => (Memory.read t.buf 0, t.bufcnt, t.len, t.seq)) (exec (.absorb 0x61#8) State.reset)
      = some (some 0x61#8, 1#6, 8#64, .idle) := by decide
/-- 95 2.1: LEN wraps from 0xFFFFFFFFFFFFFFF8 to 0. -/
theorem test_absorb_len_wraps :
    seen (fun t => (Memory.read t.buf 5, t.bufcnt, t.len)) (exec (.absorb 0#8)
      { State.reset with bufcnt := 5#6, len := 0xFFFFFFFFFFFFFFF8#64 })
      = some (some 0#8, 6#6, 0#64) := by decide
/-- R106's example: 'a', 'b', 'c' and LEN = 0x18. -/
theorem test_finalize_one_block :
    seen (fun t => (t.buf.map Prod.snd, t.cont, t.bufcnt, t.seq)) (exec .finalize
      { State.reset with buf := bufOf [0x61#8, 0x62#8, 0x63#8], bufcnt := 3#6, len := 0x18#64 })
      = some ([0x61#8, 0x62#8, 0x63#8, 0x80#8] ++ List.replicate 52 0#8 ++ [0x18#8, 0#8, 0#8, 0#8, 0#8, 0#8, 0#8, 0#8],
          .out, 0#6, .loadv) := by decide
/-- 95 2.1: PADTAIL at r = 63. -/
theorem test_finalize_two_blocks :
    seen (fun t => (Memory.read t.buf 62, Memory.read t.buf 63, t.cont, t.bufcnt)) (exec .finalize (absorbing 63#6 0x30000000#32))
      = some (some 0x61#8, some 0x80#8, .pad2, 0#6) := by decide

/-! ## Sequencer states, acceptance, reset -/

/-- 95 2.1: PAD2 with LEN = 0x1F8. -/
theorem test_pad2 :
    seen (fun t => (t.buf.map Prod.snd, t.cont, t.seq)) (step { atSeq .pad2 with len := 0x1F8#64, cont := .pad2 })
      = some (List.replicate 56 0#8 ++ [0xF8#8, 0x01#8, 0#8, 0#8, 0#8, 0#8, 0#8, 0#8], .out, .loadv) := by decide
/-- R179's example. -/
theorem test_feed :
    seen State.h (step { atSeq .feed with
      v := { a := 0x798AB330#32, b := 0x421BBF48#32, c := 0x3E9E5FB9#32, d := 0xB0576C6A#32 } })
      = some { a := 0xE0CFD631#32, b := 0x31E96AD1#32, c := 0xD7593CB7#32, d := 0xC089C0E0#32 } := by decide
/-- R201's example, and DONE in STATUS. -/
theorem test_out :
    seen (fun t => (t.digest.map Vector.toList, statusWord t)) (step (atSeq .out))
      = some (some [0x01#8, 0x23#8, 0x45#8, 0x67#8, 0x89#8, 0xAB#8, 0xCD#8, 0xEF#8, 0xFE#8, 0xDC#8, 0xBA#8, 0x98#8, 0x76#8,
          0x54#8, 0x32#8, 0x10#8], 2#32) := by decide
/-- 95 2.6: 0x30000001 with DONE = 1 gives code 2. -/
theorem test_accept_priority :
    seen (fun t => (statusWord t, t.faultLog)) (step { finished with cmd := some 0x30000001#32 })
      = some (0x26#32, [.protocolError .reservedField]) := by decide
/-- 95 P5: STATUS = 0x36 after ABSORB on a finished message, and a further FINALIZE is refused. -/
theorem test_accept_locked :
    seen (fun t => (statusWord t, t.faultLog)) (step { finished with cmd := some 0x20000061#32 })
      = some (0x36#32, [.protocolError .absorbAfterDone])
    ∧ seen (fun t => (statusWord t, t.faultLog)) (step { finished with cmd := some 0x30000000#32, err := true, ecode := 3#4 })
      = some (0x36#32, [.refused]) := by decide
theorem test_memory_of_reset_wf : Memory.wf State.reset.buf = true := by decide

/-! ## Every table row runs as the first step after reset -/

theorem test_first_step_init :
    seen id (step (State.reset.withFetchWord 32 0x10000000)) = seen id (exec .init State.reset) := by decide
theorem test_first_step_absorb :
    seen id (step (State.reset.withFetchWord 32 0x20000061)) = seen id (exec (.absorb 0x61#8) State.reset) := by decide
theorem test_first_step_finalize :
    seen id (step (State.reset.withFetchWord 32 0x30000000)) = seen id (exec .finalize State.reset) := by decide
/-- 95 2.3, the all-zero rows: s = 19, 13, 15. -/
theorem test_first_step_stepF :
    seen (fun t => t.v.a) (step (State.reset.withFetchWord 16 0x0013)) = some 0x00000000#32 := by decide
theorem test_first_step_stepG :
    seen (fun t => t.v.a) (step (State.reset.withFetchWord 16 0x400D)) = some 0x4F332B50#32 := by decide
theorem test_first_step_stepH :
    seen (fun t => t.v.a) (step (State.reset.withFetchWord 16 0x800F)) = some 0xF5D0B76C#32 := by decide

/-! ## Known answers of the source, spec/95_test_vectors.md 1.1: the functions alone, without the machine -/

/-- The codes of a string's characters. -/
def ascii (t : String) : List Byte := (asciiBytes t.toList).getD []

theorem test_md4_empty : md4Hex [] = "31d6cfe0d16ae931b73c59d7e0c089c0".toList := by decide +kernel
theorem test_md4_abc : md4Hex (ascii "abc") = "a448017aaf21d8525fc10ae87aa6729d".toList := by decide +kernel
theorem test_md4_message_digest :
    md4Hex (ascii "message digest") = "d9130a8164549fe818874806e1c7014b".toList := by decide +kernel
theorem test_md4_alphabet :
    md4Hex (ascii "abcdefghijklmnopqrstuvwxyz") = "d79e1c308aa5bbcdeea8ed63df412da9".toList := by decide +kernel
/-- 1.3, the two-block path. -/
theorem test_md4_two_tail_blocks :
    md4Hex (ascii "ABCDEFGHIJKLMNOPQRSTUVWXYZabcdefghijklmnopqrstuvwxyz0123456789")
      = "043f8582f241db351ce627e153e7f0e4".toList := by decide +kernel

/-! ## Witnesses: a state and operands that meet a statement's hypotheses, clause by clause at the ends of their ranges -/

theorem full_isSome (b : Byte) : ∀ a, a < 64 → (Memory.read (fullBuf b) a).isSome = true := by
  intro a h
  rw [fullBuf, bufOf, Memory.read_writeBytes, if_pos ⟨by omega, by simpa using h⟩, List.getElem?_eq_getElem (by simpa using h)]
  rfl

theorem wf_fullBuf (b : Byte) : Memory.wf (fullBuf b) = true :=
  Memory.wf_writeBytes _ rfl (by simp [bufSize])

/-! ### Encoding -/

theorem witness_DecodeOfEncodeIsTheInstr :
    (Instr.stepF .b 15#4 1#5).wellFormed = true ∧ (Instr.stepG .c 0#4 31#5).wellFormed = true
      ∧ (Instr.stepH .d 7#4 16#5).wellFormed = true ∧ (Instr.absorb 0xFF#8).wellFormed = true := by decide
theorem witness_EncodeOfDecodeIsTheWord :
    decode (.cmd32 0x200000FF#32) = some (.absorb 0xFF#8) ∧ decode (.uw16 0xBF1F#16) = some (.stepH .d 15#4 31#5) := by decide
theorem witness_CommandPatternsAreExact :
    decodeCmd 0x200000FF#32 = .ok (.absorb 0xFF#8) ∧ decodeCmd 0x0FFFFFFF#32 = .error .illegalOpcode
      ∧ decodeCmd 0x30000001#32 = .error .reservedField ∧ decodeCmd 0x20000100#32 = .error .reservedField := by decide
theorem witness_MicrowordPatternsAreExact :
    decodeUw 0x3F1F#16 = .ok (Round.r1.stepInstr .d 15#4 31#5) ∧ decodeUw 0xC001#16 = .error .round
      ∧ decodeUw 0x0021#16 = .error .bits ∧ decodeUw 0x8000#16 = .error .rotate := by decide
theorem witness_OpcodeRowsDoNotOverlap :
    (Encoded.cmd32 0x20000061#32).inRow (opcodeRow (.absorb 0x61#8)) ∧ (Encoded.cmd32 0x20000061#32).inRow (opcodeRow (.absorb 0#8)) := by
  constructor <;> exact ⟨rfl, by decide⟩
theorem witness_OpcodeRowsDoNotOverlap_decoded : decode (.uw16 0x7FFF#16) = none ∧ decode (.uw16 0x7F1F#16) = some (.stepG .d 15#4 31#5) := by
  decide
/-- A row's word with S = 1 decodes, the one with S = 0 does not. -/
theorem witness_OpcodeRowsDoNotOverlap_rotate :
    (Encoded.uw16 0x4000#16).inRow (opcodeRow (.stepG .d 15#4 31#5)) ∧ (Encoded.uw16 0x4001#16).inRow (opcodeRow (.stepG .d 15#4 31#5)) := by
  constructor <;> exact ⟨rfl, by decide⟩
theorem witness_HashLineExpands : ∀ c ∈ [' ', '"', 'a', '~'], c.toNat < 128 := by simp

/-! ### Operands -/

theorem witness_LittleEndianByteOrder : ∃ i j : Nat, (i < 4 ∧ i = 3) ∧ (j < 8 ∧ j = 7) := ⟨3, 7, by decide⟩
theorem witness_MixersPerBit : ∃ i : Nat, i < 32 ∧ i = 31 := ⟨31, by decide⟩
theorem witness_RotatorMovesBits :
    (1 ≤ 1 ∧ 1 ≤ 31) ∧ (1 ≤ 31 ∧ 31 ≤ 31) ∧ (0 = 0 ∨ 32 ≤ 0) ∧ (32 = 0 ∨ 32 ≤ 32) := by decide
theorem witness_MemoryPrimitives_read :
    60 + 4 ≤ 64 ∧ ∀ i, i < 4 → (Memory.read (fullBuf 1#8) (60 + i)).isSome = true :=
  ⟨by decide, fun i h => full_isSome 1#8 _ (by omega)⟩
theorem witness_MemoryPrimitives_fault : 60 + 4 ≤ 64 ∧ 3 < 4 ∧ Memory.read State.reset.buf (60 + 3) = none := by decide
theorem witness_MemoryPrimitives_write : 56 + (leBytes64 0#64).length ≤ 64 ∧ Memory.wf State.reset.buf = true := ⟨Nat.le_refl _, rfl⟩
theorem witness_MemoryPrimitives_outside : 64 < 61 + 4 ∧ 64 < 64 + [0#8].length := by decide
theorem witness_BufferByteInsideWord :
    63 < 64 ∧ ∃ x, blockWord (Memory.write (fullBuf 1#8) 63 0xAB#8) (BitVec.ofNat 4 (63 / 4)) = .next x :=
  ⟨by decide, _, by rfl⟩

/-! ### The step instructions -/

/-- The last word of a block, every byte of it with a value. -/
theorem witness_StepFComputesRound1 :
    (31#5 ≠ 0#5 ∧ Memory.read (atSeq (.step 0)).buf (4 * (15#4).toNat) = some 0#8
      ∧ Memory.read (atSeq (.step 0)).buf (4 * (15#4).toNat + 1) = some 0#8
      ∧ Memory.read (atSeq (.step 0)).buf (4 * (15#4).toNat + 2) = some 0#8
      ∧ Memory.read (atSeq (.step 0)).buf (4 * (15#4).toNat + 3) = some 0#8)
    ∧ encode (.stepF .d 15#4 31#5) = .uw16 0x3F1F#16 := by decide
theorem witness_StepGComputesRound2 :
    (1#5 ≠ 0#5 ∧ Memory.read (atSeq (.step 0)).buf (4 * (0#4).toNat) = some 0#8
      ∧ Memory.read (atSeq (.step 0)).buf (4 * (0#4).toNat + 1) = some 0#8
      ∧ Memory.read (atSeq (.step 0)).buf (4 * (0#4).toNat + 2) = some 0#8
      ∧ Memory.read (atSeq (.step 0)).buf (4 * (0#4).toNat + 3) = some 0#8)
    ∧ encode (.stepG .a 0#4 1#5) = .uw16 0x4001#16 := by decide
theorem witness_StepHComputesRound3 :
    (15#5 ≠ 0#5 ∧ Memory.read (atSeq (.step 0)).buf (4 * (8#4).toNat) = some 0#8
      ∧ Memory.read (atSeq (.step 0)).buf (4 * (8#4).toNat + 1) = some 0#8
      ∧ Memory.read (atSeq (.step 0)).buf (4 * (8#4).toNat + 2) = some 0#8
      ∧ Memory.read (atSeq (.step 0)).buf (4 * (8#4).toNat + 3) = some 0#8)
    ∧ encode (.stepH .b 8#4 15#5) = .uw16 0x980F#16 := by decide
theorem witness_StepsChangeOnlyTheirSlot :
    ∃ t, exec (Round.r2.stepInstr .c 15#4 31#5) (atSeq (.step 0)) = .next t := ⟨_, rfl⟩
theorem witness_StepsStopByName :
    (3 < 4 ∧ Memory.read State.reset.buf (4 * (15#4).toNat + 3) = none)
      ∧ ∀ i, i < 4 → (Memory.read (atSeq (.step 0)).buf (4 * (15#4).toNat + i)).isSome = true := by decide
/-- Where the two stops meet, and what the model reports there (log entry 12). -/
theorem witness_StepsStopByName_both :
    (0 < 4 ∧ Memory.read State.reset.buf (4 * (15#4).toNat + 0) = none ∧ 0#5 = 0#5)
      ∧ exec (Round.r1.stepInstr .a 15#4 0#5) State.reset = .fault .bufByteHoldsNoValue := ⟨by decide, rfl⟩

/-! ### The commands -/

theorem witness_InitStartsAMessage : ∃ t, exec .init finished = .next t := ⟨_, rfl⟩
theorem witness_AbsorbAppendsAByte :
    ((absorbing 63#6 0#32).err = false ∧ (absorbing 63#6 0#32).done = false ∧ (absorbing 63#6 0#32).bufcnt = 63#6)
    ∧ ((absorbing 62#6 0#32).err = false ∧ (absorbing 62#6 0#32).done = false ∧ (absorbing 62#6 0#32).bufcnt ≠ 63#6)
    ∧ (finished.err = false ∧ finished.done = true)
    ∧ ((offering 0x20000100#32).host = [] ∧ (offering 0x20000100#32).seq = .idle
      ∧ (offering 0x20000100#32).cmd = some 0x20000100#32 ∧ (offering 0x20000100#32).err = false
      ∧ (0x20000100#32).toNat / 2 ^ 28 = 2 ∧ (0x20000100#32).toNat / 2 ^ 8 % 2 ^ 20 ≠ 0) := by decide
theorem witness_FinalizePadsTheTail :
    ((absorbing 55#6 0#32).err = false ∧ (absorbing 55#6 0#32).done = false ∧ (absorbing 55#6 0#32).bufcnt.toNat ≤ 55)
    ∧ ((absorbing 56#6 0#32).err = false ∧ (absorbing 56#6 0#32).done = false ∧ ¬(absorbing 56#6 0#32).bufcnt.toNat ≤ 55)
    ∧ (0 < (absorbing 63#6 0#32).bufcnt.toNat ∧ (absorbing 63#6 0#32).err = false ∧ (absorbing 63#6 0#32).done = false)
    ∧ ((absorbing 54#6 0#32).bufcnt.toNat < 55 ∧ 55 < (if (absorbing 54#6 0#32).bufcnt.toNat ≤ 55 then 56 else 64)) := by decide
theorem witness_FinalizeIsRefusedByPhase :
    (finished.err = false ∧ finished.done = true)
    ∧ ((offering 0x30000001#32).host = [] ∧ (offering 0x30000001#32).seq = .idle
      ∧ (offering 0x30000001#32).cmd = some 0x30000001#32 ∧ (offering 0x30000001#32).err = false
      ∧ (0x30000001#32).toNat / 2 ^ 28 = 3 ∧ (0x30000001#32 : CommandWord) ≠ 0x30000000#32) := by decide

/-! ### Acceptance and errors -/

/-- A finished message with a word on CMD, under the lock or not. -/
def finishedOffering (e : Bool) (w : CommandWord) : State :=
  { finished with err := e, ecode := if e then 3#4 else 0#4, cmd := some w }

theorem witness_CommandAcceptance_idle (e : Bool) (w : CommandWord) :
    (finishedOffering e w).host = [] ∧ (finishedOffering e w).seq = .idle ∧ (finishedOffering e w).cmd = some w
      ∧ (finishedOffering e w).err = e ∧ (finishedOffering e w).done = true ∧ (offering w).host = [] ∧ (offering w).seq = .idle
      ∧ (offering w).cmd = some w ∧ (offering w).err = false ∧ (offering w).done = false :=
  ⟨rfl, rfl, rfl, rfl, rfl, rfl, rfl, rfl, rfl, rfl⟩
theorem witness_CommandAcceptance_words :
    decodeCmd 0x20000061#32 ≠ .ok .init ∧ decodeCmd 0x40000000#32 = .error .illegalOpcode
      ∧ decodeCmd 0x20000061#32 = .ok (.absorb 0x61#8) ∧ decodeCmd 0x30000000#32 = .ok .finalize
      ∧ decodeCmd 0x10000000#32 = .ok .init := by decide
theorem witness_ErrorPriority :
    ((finishedOffering true 0x00000000#32).err = true ∧ (0x00000000#32 : CommandWord) ≠ 0x10000000#32)
    ∧ ((finishedOffering false 0x4FFFFFFF#32).err = false ∧ (0x4FFFFFFF#32).toNat / 2 ^ 28 ≠ 1
      ∧ (0x4FFFFFFF#32).toNat / 2 ^ 28 ≠ 2 ∧ (0x4FFFFFFF#32).toNat / 2 ^ 28 ≠ 3)
    ∧ ((finishedOffering false 0x30000001#32).err = false ∧ (0x30000001#32).toNat / 2 ^ 28 = 3
      ∧ (0x30000001#32).toNat / 2 ^ 28 ≠ 2 ∧ (0x30000001#32).toNat % 2 ^ 8 ≠ 0)
    ∧ ((finishedOffering false 0x20000100#32).err = false ∧ (0x20000100#32).toNat / 2 ^ 28 = 2
      ∧ (0x20000100#32).toNat / 2 ^ 8 % 2 ^ 20 ≠ 0) := by decide
theorem witness_ProtocolErrorsArePrecise :
    ∃ t, (finishedOffering false 0x20000061#32).host = [] ∧ step (finishedOffering false 0x20000061#32) = .next t
      ∧ (finishedOffering false 0x20000061#32).err = false ∧ t.err = true
      ∧ t.faultLog = (finishedOffering false 0x20000061#32).faultLog ++ [.protocolError .absorbAfterDone] :=
  ⟨_, rfl, rfl, rfl, rfl, rfl⟩
theorem witness_ErrorIsSticky_init :
    ∃ t, step (finishedOffering true 0x10000000#32) = .next t ∧ (finishedOffering true 0x10000000#32).err = true ∧ t.err = false :=
  ⟨_, rfl, rfl, rfl⟩
theorem witness_ErrorIsSticky_reset :
    ∃ t, step { finishedOffering true 0#32 with host := [.assertReset] } = .next t ∧ (finishedOffering true 0#32).err = true
      ∧ t.err = false := ⟨_, rfl, rfl, rfl⟩
theorem witness_ErrorIsSticky_refused :
    (finishedOffering true 0x30000000#32).host = [] ∧ (finishedOffering true 0x30000000#32).seq = .idle
      ∧ (finishedOffering true 0x30000000#32).cmd = some 0x30000000#32 ∧ (finishedOffering true 0x30000000#32).err = true
      ∧ decodeCmd 0x30000000#32 ≠ .ok .init := by decide

/-! ### The sequencer -/

theorem witness_StepRunsTheDecodedInstr_command :
    (offering 0x200000FF#32).host = [] ∧ (offering 0x200000FF#32).seq = .idle ∧ (offering 0x200000FF#32).cmd = some 0x200000FF#32
      ∧ decode (.cmd32 0x200000FF#32) = some (.absorb 0xFF#8) := by decide
/-- R171: word 0 is STEP_F a, X[0], 3 and word 47 is STEP_H b, X[15], 15. -/
theorem witness_StepRunsTheDecodedInstr_microword :
    ((atSeq (.step 0)).host = [] ∧ decode (.uw16 ((atSeq (.step 0)).rom[0])) = some (.stepF .a 0#4 3#5))
      ∧ ((atSeq (.step 47)).host = [] ∧ decode (.uw16 ((atSeq (.step 47)).rom[47])) = some (.stepH .b 15#4 15#5)) := by decide
theorem witness_StepTransitionsComplete (j : Fin 48) :
    (atSeq (.step j)).host = [] ∧ (atSeq (.step j)).seq = .step j ∧ (atSeq (.step j)).rom = stepRom
      ∧ ∀ a, a < 64 → (Memory.read (atSeq (.step j)).buf a).isSome = true := ⟨rfl, rfl, rfl, full_isSome 0#8⟩
theorem witness_LoadvCopiesTheState : (atSeq .loadv).host = [] ∧ (atSeq .loadv).seq = .loadv := by decide
theorem witness_FeedAddsAndContinues (c : Cont) :
    ({ atSeq .feed with cont := c } : State).host = [] ∧ ({ atSeq .feed with cont := c } : State).seq = .feed := ⟨rfl, rfl⟩
theorem witness_Pad2LoadsTheSecondBlock : (atSeq .pad2).host = [] ∧ (atSeq .pad2).seq = .pad2 := by decide
theorem witness_OutSerializesTheState : (atSeq .out).host = [] ∧ (atSeq .out).seq = .out := by decide
theorem witness_SeqMovesOnlyAsListed_block : ∃ t, step (absorbing 63#6 0x20000061#32) = .next t ∧ t.seq = .loadv := ⟨_, rfl, rfl⟩
theorem witness_SeqMovesOnlyAsListed_last : ∃ t, step (atSeq (.step 47)) = .next t ∧ t.seq = .feed := ⟨_, rfl, rfl⟩
theorem witness_IdleCoreKeepsItsState : finished.host = [] ∧ finished.seq = .idle ∧ finished.cmd = none := by decide

/-! ### Who writes what -/

theorem witness_ChainingStateWriters_feed :
    ∃ t, step { atSeq .feed with v := allWords 1#32 } = .next t ∧ t.h ≠ (atSeq .feed).h := ⟨_, rfl, by decide⟩
theorem witness_ChainingStateWriters_init :
    ∃ t, step { offering 0x10000000#32 with h := allWords 0#32 } = .next t ∧ t.h ≠ allWords 0#32 := ⟨_, rfl, by decide⟩
theorem witness_ChainingStateWriters_reset :
    ∃ t, step { finished with h := allWords 0#32, host := [.assertReset] } = .next t ∧ t.h ≠ allWords 0#32 := ⟨_, rfl, by decide⟩
theorem witness_DigestWriters_out : ∃ t, step (atSeq .out) = .next t ∧ t.digest ≠ (atSeq .out).digest := ⟨_, rfl, by decide⟩
theorem witness_DigestWriters_init :
    ∃ t, step (finishedOffering false 0x10000000#32) = .next t ∧ t.digest ≠ (finishedOffering false 0x10000000#32).digest :=
  ⟨_, rfl, by decide⟩
theorem witness_DigestWriters_reset :
    ∃ t, step { finished with host := [.assertReset] } = .next t ∧ t.digest ≠ finished.digest := ⟨_, rfl, by decide⟩
theorem witness_BlockIsFrozenWhileCompressed :
    ∃ t, step (atSeq (.step 47)) = .next t ∧ (∀ l, (atSeq (.step 47)).host ≠ .assertReset :: l)
      ∧ compressing (atSeq (.step 47)).seq = true ∧ (atSeq (.step 47)).seq = .step 47 :=
  ⟨_, rfl, fun _ => List.cons_ne_nil _ _ ∘ Eq.symm, rfl, rfl⟩
theorem witness_BufferWriters_absorb :
    ∃ t, step (offering 0x20000061#32) = .next t ∧ Memory.read t.buf 0 ≠ Memory.read (offering 0x20000061#32).buf 0 :=
  ⟨_, rfl, by decide⟩
theorem witness_BufferWriters_finalize :
    ∃ t, step (absorbing 63#6 0x30000000#32) = .next t ∧ Memory.read t.buf 63 ≠ Memory.read (absorbing 63#6 0x30000000#32).buf 63 :=
  ⟨_, rfl, by decide⟩
theorem witness_BufferWriters_pad2 :
    ∃ t, step { atSeq .pad2 with buf := [] } = .next t ∧ Memory.read t.buf 63 ≠ Memory.read [] 63 := ⟨_, rfl, by decide⟩
theorem witness_BufferWriters_reset :
    ∃ t, step { atSeq .idle with host := [.assertReset] } = .next t ∧ Memory.read t.buf 63 ≠ Memory.read (atSeq .idle).buf 63 :=
  ⟨_, rfl, by decide⟩
theorem witness_StepRomIsNeverWritten : ∃ t, step (offering 0x20000061#32) = .next t := ⟨_, rfl⟩
/-- The word is held while the core is busy, and taken at IDLE. -/
theorem witness_HeldCommandIsKept :
    (∃ t, step { atSeq .feed with cmd := some 0x10000000#32 } = .next t
        ∧ (∀ l, (atSeq .feed).host ≠ .assertReset :: l) ∧ cmdReady (atSeq .feed) = false)
      ∧ ∃ t, step (offering 0x10000000#32) = .next t ∧ (offering 0x10000000#32).cmd = some 0x10000000#32 ∧ t.cmd = none :=
  ⟨⟨_, rfl, fun _ => List.cons_ne_nil _ _ ∘ Eq.symm, rfl⟩, _, rfl, rfl, rfl⟩

/-! ### Reads, reset, the invariant -/

theorem witness_StatusWordLayout :
    3 < 4 ∧ 8 ≤ 31 ∧ ∃ s : State, s.host = .readStatus :: [] := ⟨by decide, by decide, { finished with host := [.readStatus] }, rfl⟩

/-- A finished message keeps the invariant, whatever the host's script and the word on CMD. -/
theorem coherent_finished (l : List HostMove) (c : Option CommandWord) : Coherent { finished with host := l, cmd := c } where
  bufCanonical := rfl
  romFixed := rfl
  blockWritten := fun h => Bool.noConfusion h
  tailWritten := fun j h => absurd h (Nat.not_lt_zero j)
  busyCountsNothing := fun _ => rfl
  lengthCountsTail := fun h => Cont.noConfusion h
  errorCode := ⟨⟨fun h => Bool.noConfusion h, fun h => absurd rfl h⟩, Nat.zero_le _⟩
  digestValue := rfl
  flagsAtIdle := fun _ => rfl
  contAtSeq := ⟨fun h => (nomatch h), fun h => (nomatch h)⟩
  contAtIdle := fun _ => rfl

/-- An open message with n bytes of a block in a full buffer keeps the invariant. -/
theorem coherent_open {m : Memory} (hw : Memory.wf m = true) (hf : ∀ a, a < 64 → (Memory.read m a).isSome = true) (n : BitVec 6)
    (w : CommandWord) : Coherent { offering w with buf := m, bufcnt := n, len := BitVec.ofNat 64 (8 * n.toNat) } where
  bufCanonical := hw
  romFixed := rfl
  blockWritten := fun h => Bool.noConfusion h
  tailWritten := fun j h => hf j (Nat.lt_trans h n.isLt)
  busyCountsNothing := fun h => absurd rfl h
  lengthCountsTail := by
    intro _
    have := n.isLt
    simp only [BitVec.toNat_ofNat]
    omega
  errorCode := ⟨⟨fun h => Bool.noConfusion h, fun h => absurd rfl h⟩, Nat.zero_le _⟩
  digestValue := rfl
  flagsAtIdle := fun _ => rfl
  contAtSeq := ⟨fun h => (nomatch h), fun h => (nomatch h)⟩
  contAtIdle := fun _ => rfl

theorem coherent_absorbing (n : BitVec 6) (w : CommandWord) : Coherent (absorbing n w) :=
  coherent_open (wf_fullBuf _) (full_isSome _) n w

/-- The first of two tail blocks, about to be compressed, keeps the invariant. -/
theorem coherent_block {m : Memory} (hw : Memory.wf m = true) (hf : ∀ a, a < 64 → (Memory.read m a).isSome = true) :
    Coherent { State.reset with seq := .loadv, buf := m, cont := .pad2 } where
  bufCanonical := hw
  romFixed := rfl
  blockWritten := fun _ => hf
  tailWritten := fun j h => absurd h (Nat.not_lt_zero j)
  busyCountsNothing := fun _ => rfl
  lengthCountsTail := fun h => Cont.noConfusion h
  errorCode := ⟨⟨fun h => Bool.noConfusion h, fun h => absurd rfl h⟩, Nat.zero_le _⟩
  digestValue := rfl
  flagsAtIdle := fun h => h.elim (fun h => Bool.noConfusion h) fun h => Bool.noConfusion h
  contAtSeq := ⟨fun _ => rfl, fun h => (nomatch h)⟩
  contAtIdle := fun h => nomatch h

/-- The first of two tail blocks, at LOADV. -/
def tailBlock : State := { State.reset with seq := .loadv, buf := fullBuf 0#8, cont := .pad2 }

theorem coherent_tailBlock : Coherent tailBlock := coherent_block (m := fullBuf 0#8) (wf_fullBuf _) (full_isSome _)

theorem witness_DigestReads_fault :
    ({ State.reset with host := [.readDigest 15] } : State).host = .readDigest 15 :: [] ∧ State.reset.done = false := ⟨rfl, rfl⟩
theorem witness_DigestReads_byte :
    Coherent { finished with host := [.readDigest 15], cmd := none } ∧ finished.done = true := ⟨coherent_finished _ _, rfl⟩
theorem witness_ResetMoveResets : ({ atSeq (.step 47) with host := [.assertReset] } : State).host = .assertReset :: [] := rfl
theorem witness_StepKeepsCoherent : ∃ t, Coherent (absorbing 63#6 0x20000061#32) ∧ step (absorbing 63#6 0x20000061#32) = .next t :=
  ⟨_, coherent_absorbing _ _, rfl⟩
theorem witness_CoherentStatesNeverStop :
    Coherent tailBlock ∧ Coherent { finished with host := [.readDigest 0], cmd := none } :=
  ⟨coherent_tailBlock, coherent_finished _ _⟩

theorem witness_HostPresentsOneWordAtATime :
    (({ State.reset with host := [.present 0x30000000#32] } : State).host = .present 0x30000000#32 :: [] ∧ State.reset.cmd = none)
      ∧ ({ offering 0x10000000#32 with host := [.present 0x30000000#32] } : State).cmd ≠ none
      ∧ ∃ t, step { offering 0x10000000#32 with host := [] } = .next t := ⟨⟨rfl, rfl⟩, Option.some_ne_none _, _, rfl⟩
/-- A yield with more of the script to come, in a state whose transition changes it. -/
theorem witness_HostPresentsOneWordAtATime_yield :
    ({ atSeq .feed with host := [.yield, .readStatus] } : State).host = .yield :: [.readStatus]
      ∧ ∃ t, step { atSeq .feed with host := [] } = .next t ∧ t.seq = .idle := ⟨rfl, _, rfl, rfl⟩

/-! ### Blocks, counts, messages -/

theorem witness_BlockTakesFiftyTransitions :
    (atSeq .loadv).host = [] ∧ (atSeq .loadv).seq = .loadv ∧ (atSeq .loadv).rom = stepRom
      ∧ ∀ a, a < 64 → (Memory.read (atSeq .loadv).buf a).isSome = true := ⟨rfl, rfl, rfl, full_isSome 0#8⟩
theorem witness_AcceptedCommandLength (n : BitVec 6) (w : CommandWord) :
    Coherent (absorbing n w) ∧ (absorbing n w).host = [] ∧ (absorbing n w).seq = .idle ∧ (absorbing n w).cmd = some w
      ∧ (absorbing n w).err = false ∧ (absorbing n w).done = false := ⟨coherent_absorbing n w, rfl, rfl, rfl, rfl, rfl⟩
theorem witness_AcceptedCommandLength_logged :
    ∃ t, step (absorbing 55#6 0#32) = .next t ∧ t.faultLog ≠ (absorbing 55#6 0#32).faultLog := ⟨_, rfl, by decide⟩
theorem witness_BusyPeriodsEnd :
    Coherent tailBlock ∧ tailBlock.host = []
      ∧ transitionsLeft tailBlock = 102 := ⟨coherent_tailBlock, rfl, rfl⟩
theorem witness_TailDecomposition :
    ∃ m m' : List Byte, (m.length % 64 ≤ 55 ∧ m.length % 64 = 55) ∧ (56 ≤ m'.length % 64 ∧ m'.length % 64 = 56)
      ∧ 0 < (List.replicate 64 0#8 ++ m).length / 64 :=
  ⟨List.replicate 55 0#8, List.replicate 56 0#8, by simp⟩
theorem witness_CommandSequenceComputesMd4 (m : List Byte) :
    ({ finished with host := hashScript m } : State).seq = .idle ∧ ({ finished with host := hashScript m } : State).cmd = none
      ∧ ({ finished with host := hashScript m } : State).rom = stepRom
      ∧ ({ finished with host := hashScript m } : State).host = hashScript m := ⟨rfl, rfl, rfl, rfl⟩
/-- Reset in the middle of a block, under the error lock. -/
theorem witness_SequenceAfterResetComputesMd4 (m : List Byte) :
    ({ atSeq (.step 47) with err := true, ecode := 1#4, host := .assertReset :: hashScriptAfterReset m } : State).cmd = none
      ∧ ({ atSeq (.step 47) with err := true, ecode := 1#4, host := .assertReset :: hashScriptAfterReset m } : State).rom = stepRom
      ∧ ({ atSeq (.step 47) with err := true, ecode := 1#4, host := .assertReset :: hashScriptAfterReset m } : State).host
        = .assertReset :: hashScriptAfterReset m := ⟨rfl, rfl, rfl⟩
theorem witness_NoCarryOverBetweenMessages (m : List Byte) :
    (({ finished with host := hashScript m } : State).seq = .idle ∧ finished.cmd = none ∧ finished.rom = stepRom)
      ∧ ({ atSeq .idle with host := hashScript m, err := true, ecode := 4#4 } : State).seq = .idle
      ∧ (atSeq .idle).cmd = none ∧ (atSeq .idle).rom = stepRom := ⟨⟨rfl, rfl, rfl⟩, rfl, rfl, rfl⟩

end Sys2Proof.Tests
end

/-! PROOFS of the family 10_state: the registers of the core, who writes them, and their values at reset. -/

namespace Sys2Proof.Machine

/-! ## Who moves in a step -/

/-- A step is the core's move, under whatever script is left, or a reset, or a host move that leaves all of the core alone and
never takes a held word away (R220). -/
theorem MachineMove.agent {s t : State} (h : MachineMove s t) :
    (∃ l, CoreMove { s with host := l } t)
    ∨ (t = applyReset (dropMove s) ∧ ∃ l, s.host = .assertReset :: l)
    ∨ (t = { s with cmd := t.cmd, host := t.host, reads := t.reads } ∧ ∀ w, s.cmd = some w → t.cmd = some w) := by
  cases h with
  | core _ hh hm => exact .inl ⟨s.host, hm⟩
  | yield _ l hh hm => exact .inl ⟨s.host.tail, hm⟩
  | reset l hh => exact .inr (.inl ⟨rfl, l, hh⟩)
  | present w l hh hc => exact .inr (.inr ⟨rfl, fun v hv => by simp [hc] at hv⟩)
  | status l hh => exact .inr (.inr ⟨rfl, fun _ hv => hv⟩)
  | digest i d l hh hn hd => exact .inr (.inr ⟨rfl, fun _ hv => hv⟩)

/-- With no script a step is a core's move. -/
theorem coreMove_of_step {s t : State} (hh : s.host = []) (h : step s = .next t) : CoreMove s t :=
  coreTransition_move (step_of_no_script hh ▸ h)

/-- At IDLE with no script the step is the acceptance of the presented word. -/
theorem step_of_command {s : State} {w : CommandWord} (hh : s.host = []) (hq : s.seq = .idle) (hc : s.cmd = some w) :
    step s = acceptWord w s := by
  simp [step_of_no_script hh, coreTransition, hq, hc]

/-! ## The error lock -/

/-- Under the lock every word but INIT is taken and refused (R222, R264). -/
theorem acceptWord_locked {s : State} {w : CommandWord} (he : s.err = true) (hd : decodeCmd w ≠ .ok .init) :
    acceptWord w s = .next (refuseCommand (takeCommand s)) := by
  cases hw : decodeCmd w with
  | error code => simp [acceptWord, hw, rejectWord, he]
  | ok i =>
    rcases decodeCmd_cases hw with rfl | rfl | rfl
    · exact absurd hw hd
    · simp [acceptWord, hw, exec, execAbsorb, he]
    · simp [acceptWord, hw, exec, execFinalize, he]

/-- The core clears ERR only by INIT: every other move keeps it or sets it (R34). -/
theorem CoreMove.err_cleared {s t : State} (h : CoreMove s t) (he : s.err = true) (ht : t.err = false) :
    s.seq = .idle ∧ ∃ w, s.cmd = some w ∧ decodeCmd w = .ok .init := by
  cases h with
  | init w hq hc hd => exact ⟨hq, w, hc, hd⟩
  | _ => simp_all

/-- Settles O28: the core clears ERR only by INIT and the host only by reset, and the lock refuses every other word. -/
theorem errorIsSticky : Obligations.ErrorIsSticky := by
  refine ⟨fun s t h he ht => ?_, fun s w hh hq hc he hd => ?_⟩
  · rcases (step_move h).agent with ⟨l, hm⟩ | ⟨-, hr⟩ | ⟨hs, -⟩
    · exact .inr (hm.err_cleared he ht)
    · exact .inl hr
    · rw [hs] at ht
      simp [he] at ht
  · rw [step_of_command hh hq hc, acceptWord_locked he hd]
    rfl

/-! ## The moves of seq -/

/-- From IDLE the core leaves only to LOADV, on an ABSORB that completes a block or on a FINALIZE (R32). -/
theorem CoreMove.seq_of_idle {s t : State} (h : CoreMove s t) (hi : s.seq = .idle) :
    t.seq = .idle ∨ (t.seq = .loadv ∧ s.err = false ∧ s.done = false ∧ ∃ w, s.cmd = some w
      ∧ ((∃ d, decodeCmd w = .ok (.absorb d) ∧ s.bufcnt = 63#6) ∨ decodeCmd w = .ok .finalize)) := by
  cases h with
  | absorbFull w d hq hc hd he hn hb => exact .inr ⟨rfl, he, hn, w, hc, .inl ⟨d, hd, hb⟩⟩
  | finalize w hq hc hd he hn => exact .inr ⟨rfl, he, hn, w, hc, .inr hd⟩
  | init => exact .inl rfl
  | _ => simp_all

/-- Settles O35: one case for each value of seq. -/
theorem seqMovesOnlyAsListed : Obligations.SeqMovesOnlyAsListed := by
  intro s t hh h
  have hm := coreMove_of_step hh h
  cases hs : s.seq with
  | idle => exact hm.seq_of_idle hs
  | loadv =>
    cases hm with
    | loadv => rfl
    | _ => simp_all
  | step j =>
    cases hm with
    | step i r u k n x hq hd hx =>
      obtain rfl : i = j := by simpa [hq] using hs
      rfl
    | _ => simp_all
  | feed =>
    cases hm with
    | feed hq => cases hc : s.cont <;> simp [seqAfterFeed, hc]
    | _ => simp_all
  | pad2 =>
    cases hm with
    | pad2 => rfl
    | _ => simp_all
  | out =>
    cases hm with
    | out => rfl
    | _ => simp_all

/-! ## The writers of H -/

/-- The core writes H only in FEED and by INIT, which leaves the IV (R23). -/
theorem CoreMove.h_writers {s t : State} (h : CoreMove s t) (hne : t.h ≠ s.h) :
    s.seq = .feed ∨ (s.seq = .idle ∧ t.h = iv ∧ ∃ w, s.cmd = some w ∧ decodeCmd w = .ok .init) := by
  cases h with
  | feed hq => exact .inl hq
  | init w hq hc hd => exact .inr ⟨hq, rfl, w, hc, hd⟩
  | _ => exact absurd rfl hne

/-- Settles O37: the core's two writers of H, and reset. -/
theorem chainingStateWriters : Obligations.ChainingStateWriters := by
  intro s t h hne
  rcases (step_move h).agent with ⟨l, hm⟩ | ⟨rfl, hr⟩ | ⟨hs, -⟩
  · exact (hm.h_writers hne).imp_right .inl
  · exact .inr (.inr ⟨rfl, hr⟩)
  · exact absurd (congrArg State.h hs) hne

/-! ## The writers of BUF -/

/-- PADTAIL writes the bytes from r to 63 alone. -/
theorem read_paddedTail_outside {m : Memory} {r a : Nat} (len : BitVec 64) (hr : r < 64) (ha : ¬(r ≤ a ∧ a < 64)) :
    Memory.read (paddedTail m r len) a = Memory.read m a := by
  rw [read_paddedTail m len hr]
  by_cases h : a < r
  · rw [if_pos h]
  · rw [if_neg h, if_neg (by omega), if_neg (by omega), if_neg (by omega)]

/-- PAD2 writes the bytes below 64 alone. -/
theorem read_secondPad_outside {m : Memory} {a : Nat} (len : BitVec 64) (ha : 64 ≤ a) :
    Memory.read (secondPad m len) a = Memory.read m a := by
  rw [read_secondPad, if_neg (by omega), if_neg (by omega)]

/-- The core writes BUF only by ABSORB, at BUFCNT, by FINALIZE, from BUFCNT to 63, and in PAD2, below 64 (R26, R106, R226). -/
theorem CoreMove.buf_writers {s t : State} {a : Nat} (h : CoreMove s t) (hne : Memory.read t.buf a ≠ Memory.read s.buf a) :
    (s.seq = .idle ∧ ∃ w, s.cmd = some w
      ∧ ((∃ d, decodeCmd w = .ok (.absorb d) ∧ a = s.bufcnt.toNat)
        ∨ (decodeCmd w = .ok .finalize ∧ s.bufcnt.toNat ≤ a ∧ a < 64)))
    ∨ (s.seq = .pad2 ∧ a < 64) := by
  have at_bufcnt : ∀ d, Memory.read (Memory.write s.buf s.bufcnt.toNat d) a ≠ Memory.read s.buf a → a = s.bufcnt.toNat :=
    fun d hd => by_contra fun hne => hd (Memory.read_write_other _ d hne)
  cases h with
  | absorbOpen w d hq hc hd => exact .inl ⟨hq, w, hc, .inl ⟨d, hd, at_bufcnt d hne⟩⟩
  | absorbFull w d hq hc hd => exact .inl ⟨hq, w, hc, .inl ⟨d, hd, at_bufcnt d hne⟩⟩
  | finalize w hq hc hd =>
    exact .inl ⟨hq, w, hc, .inr ⟨hd, by_contra fun ha => hne (read_paddedTail_outside _ s.bufcnt.isLt ha)⟩⟩
  | pad2 hq => exact .inr ⟨hq, by_contra fun ha => hne (read_secondPad_outside _ (Nat.le_of_not_lt ha))⟩
  | _ => exact absurd rfl hne

/-- Settles O40: the core's three writers of BUF, and reset. -/
theorem bufferWriters : Obligations.BufferWriters := by
  intro s t a h hne
  rcases (step_move h).agent with ⟨l, hm⟩ | ⟨-, hr⟩ | ⟨hs, -⟩
  · exact (hm.buf_writers hne).imp_right .inl
  · exact .inr (.inr hr)
  · exact absurd (congrArg (fun u => Memory.read u.buf a) hs) hne

/-! ## The command port -/

theorem cmdReady_iff (s : State) : cmdReady s = true ↔ s.seq = .idle := decide_eq_true_iff

/-- Away from IDLE the core neither takes the word on CMD nor logs anything (R38). -/
theorem CoreMove.cmd_kept_of_busy {s t : State} (h : CoreMove s t) (hb : s.seq ≠ .idle) :
    t.cmd = s.cmd ∧ t.faultLog = s.faultLog := by
  cases h with
  | loadv | step | feed | pad2 | out => exact ⟨rfl, rfl⟩
  | _ => exact absurd ‹s.seq = .idle› hb

/-- A core's move at IDLE leaves nothing on CMD. -/
theorem CoreMove.cmd_taken_at_idle {s t : State} (h : CoreMove s t) (hi : s.seq = .idle) : t.cmd = none := by
  cases h with
  | quiet hq hc => exact hc
  | loadv | step | feed | pad2 | out => simp_all
  | _ => rfl

/-- Settles O42: the core keeps a word while busy and takes it at IDLE, and no host move but reset touches a held word. -/
theorem heldCommandIsKept : Obligations.HeldCommandIsKept := by
  refine ⟨cmdReady_iff, fun s t w h hnr hc => ?_⟩
  rcases (step_move h).agent with ⟨l, hm⟩ | ⟨-, l, hr⟩ | ⟨hs, hk⟩
  · by_cases hi : s.seq = .idle
    · have hready := (cmdReady_iff s).2 hi
      exact ⟨fun hb => by simp [hready] at hb, .inr ⟨hm.cmd_taken_at_idle hi, hready⟩⟩
    · obtain ⟨hcmd, hlog⟩ := hm.cmd_kept_of_busy hi
      exact ⟨fun _ => ⟨hcmd.trans hc, hlog⟩, .inl (hcmd.trans hc)⟩
  · exact absurd hr (hnr l)
  · exact ⟨fun _ => ⟨hk w hc, by rw [hs]⟩, .inl (hk w hc)⟩

/-! ## STATUS -/

/-- Every bit of STATUS, by where the five fields of R37 are appended. -/
theorem getLsbD_statusWord (s : State) (i : Nat) :
    (statusWord s).getLsbD i
      = if i = 0 then busy s
        else if i = 1 then s.done
        else if i = 2 then s.err
        else if i < 4 then false
        else if i < 8 then s.ecode.getLsbD (i - 4)
        else false := by
  simp only [statusWord, BitVec.getLsbD_append, BitVec.getLsbD_ofBool, BitVec.getLsbD_zero]
  match i with
  | 0 | 1 | 2 | 3 => simp
  | j + 4 => simp [show j + 4 < 8 ↔ j < 4 by omega]

theorem busy_eq (s : State) : busy s = decide (s.seq ≠ .idle) := by simp [busy, cmdReady]

/-- A read of STATUS adds its value to the host's record and takes the move off the script. -/
theorem step_readStatus {s : State} {l : List HostMove} (hh : s.host = .readStatus :: l) :
    step s = .next { s with host := l, reads := s.reads ++ [.status (statusWord s)] } := by
  simp only [step, machineStep, hh, readStatus, dropMove, List.tail_cons]
  rfl

/-- Settles O43: the bits one by one, the read at any time, and the value at reset. -/
theorem statusWordLayout : Obligations.StatusWordLayout := by
  refine ⟨fun s => ⟨(getLsbD_statusWord s 0).trans (busy_eq s), getLsbD_statusWord s 1, getLsbD_statusWord s 2,
    getLsbD_statusWord s 3, fun i hi => ?_, fun i hi => ?_⟩, fun s l => step_readStatus, by decide⟩
  · rw [getLsbD_statusWord, if_neg (by omega), if_neg (by omega), if_neg (by omega), if_neg (by omega), if_pos (by omega),
      Nat.add_sub_cancel_left]
  · rw [getLsbD_statusWord, if_neg (by omega), if_neg (by omega), if_neg (by omega), if_neg (by omega), if_neg (by omega)]

/-! ## The state after reset -/

/-- Settles O46: each field as R44 gives it. -/
theorem resetStateValues : Obligations.ResetStateValues :=
  ⟨rfl, rfl, rfl, rfl, rfl, rfl, rfl, rfl, Memory.read_nil, rfl, rfl, rfl, rfl⟩

/-- Settles O47: at IDLE with an empty message every clause of the invariant is immediate. -/
theorem resetIsCoherent : Obligations.ResetIsCoherent where
  bufCanonical := rfl
  romFixed := rfl
  blockWritten := fun h => Bool.noConfusion h
  tailWritten := fun j h => absurd h (Nat.not_lt_zero j)
  busyCountsNothing := fun _ => rfl
  lengthCountsTail := fun _ => rfl
  errorCode := by decide
  digestValue := rfl
  flagsAtIdle := fun _ => rfl
  contAtSeq := by decide
  contAtIdle := fun _ => rfl

end Sys2Proof.Machine

/-! PROOFS of the family 20_memory: the accesses to BUF, BUF seen as words, and who writes DIGEST and the step ROM. -/

namespace Sys2Proof.Machine

/-! ## MemRead and MemWrite -/

/-- The bytes from j on can be read together exactly when each of them holds a value. -/
theorem Memory.readBytes_isSome_iff (m : Memory) (j n : Nat) :
    (Memory.readBytes m j n).isSome = true ↔ ∀ i, i < n → (Memory.read m (j + i)).isSome = true := by
  rw [Option.isSome_iff_exists]
  constructor
  · rintro ⟨bs, hbs⟩ i hi
    obtain ⟨hl, hr⟩ := (Memory.readBytes_eq_some n m j bs).1 hbs
    simp [hr i hi, hl, hi]
  · intro h
    refine ⟨(List.range n).map fun i => (Memory.read m (j + i)).getD 0#8,
      (Memory.readBytes_eq_some n m j _).2 ⟨by simp, fun i hi => ?_⟩⟩
    obtain ⟨b, hb⟩ := Option.isSome_iff_exists.1 (h i hi)
    simp [hi, hb]

/-- MemRead inside BUF faults where the bytes cannot all be read (I6). -/
theorem memRead_fault {m : Memory} {j n : Nat} (h : j + n ≤ bufSize) (hr : Memory.readBytes m j n = none) :
    memRead m j n = .fault .bufByteHoldsNoValue := by
  rw [memRead, if_pos h, hr]

theorem memRead_outside {m : Memory} {j n : Nat} (h : bufSize < j + n) : memRead m j n = .refused .bufIndexOutOfRange :=
  if_neg (Nat.not_le_of_lt h)

theorem memWrite_outside {m : Memory} {j : Nat} {v : List Byte} (h : bufSize < j + v.length) :
    memWrite m j v = .refused .bufIndexOutOfRange :=
  if_neg (Nat.not_le_of_lt h)

/-- Each stored byte reads back. -/
theorem Memory.read_writeBytes_inside (m : Memory) (j : Nat) {v : List Byte} {i : Nat} (hi : i < v.length) :
    Memory.read (Memory.writeBytes m j v) (j + i) = v[i]? := by
  rw [Memory.read_writeBytes, if_pos (by omega), Nat.add_sub_cancel_left]

/-- Each byte before or after the stored ones reads as it did. -/
theorem Memory.read_writeBytes_outside (m : Memory) {j a : Nat} {v : List Byte} (ha : a < j ∨ j + v.length ≤ a) :
    Memory.read (Memory.writeBytes m j v) a = Memory.read m a := by
  rw [Memory.read_writeBytes, if_neg (by omega)]

/-- Settles O14: the read, its fault, the write, and the two refusals. -/
theorem memoryPrimitives : Obligations.MemoryPrimitives := by
  refine ⟨fun m j n hin hall => ?_, fun m j n i hin hi hnone => ?_, fun m j v hin => ?_, fun m j n => memRead_outside,
    fun m j v => memWrite_outside⟩
  · obtain ⟨bs, hbs⟩ := Option.isSome_iff_exists.1 ((Memory.readBytes_isSome_iff m j n).2 hall)
    exact ⟨bs, memRead_cases.2 ⟨hin, hbs⟩, (Memory.readBytes_eq_some n m j bs).1 hbs⟩
  · refine memRead_fault hin (Option.not_isSome_iff_eq_none.1 fun hsome => ?_)
    have hi' := (Memory.readBytes_isSome_iff m j n).1 hsome i hi
    simp [hnone] at hi'
  · exact ⟨Memory.writeBytes m j v, memWrite_next hin, fun hw => Memory.wf_writeBytes v hw hin,
      fun i => Memory.read_writeBytes_inside m j, fun a => Memory.read_writeBytes_outside m⟩

/-! ## BUF as words -/

/-- A byte placed k bits up in a word is seen in the word's eight bits from k on. -/
theorem extractLsb'_shifted_byte_same (b : Byte) {k : Nat} (hk : k + 8 ≤ 32) :
    (b.setWidth 32 <<< k).extractLsb' k 8 = b := by
  ext i hi
  simp [show k + i < 32 by omega, hi]

/-- A byte placed k bits up in a word leaves any eight bits beside its own at 0. -/
theorem extractLsb'_shifted_byte_apart (b : Byte) {k l : Nat} (h : l + 8 ≤ k ∨ k + 8 ≤ l) :
    (b.setWidth 32 <<< k).extractLsb' l 8 = 0#8 := by
  ext i hi
  rcases h with h | h
  · simp [show l + i < k by omega]
  · simp [show 8 ≤ l + i - k by omega]

/-- The bytes of a word made by `le32` are those it was made from (R120, R122). -/
theorem leBytes32_le32 (b0 b1 b2 b3 : Byte) : leBytes32 (le32 b0 b1 b2 b3) = [b0, b1, b2, b3] := by
  rw [le32, ← BitVec.shiftLeft_zero (b0.setWidth 32)]
  simp (disch := omega) only [leBytes32, BitVec.extractLsb'_or, extractLsb'_shifted_byte_same, extractLsb'_shifted_byte_apart,
    BitVec.or_zero, BitVec.zero_or]

theorem leBytes32_getElem? (w : Word) {c : Nat} (hc : c < 4) : (leBytes32 w)[c]? = some (w.extractLsb' (8 * c) 8) :=
  match c, hc with
  | 0, _ | 1, _ | 2, _ | 3, _ => rfl

/-- Byte c of X[k] is BUF byte 4k + c, in bits 8c+7 to 8c (R54, R121). -/
theorem blockWord_byte {m : Memory} {k : BitVec 4} {x : Word} (h : blockWord m k = .next x) {c : Nat} (hc : c < 4) :
    Memory.read m (4 * k.toNat + c) = some (x.extractLsb' (8 * c) 8) := by
  obtain ⟨b0, b1, b2, b3, h0, h1, h2, h3, rfl⟩ := blockWord_cases h
  rw [← leBytes32_getElem? _ hc, leBytes32_le32]
  match c, hc with
  | 0, _ => exact h0
  | 1, _ => exact h1
  | 2, _ => exact h2
  | 3, _ => exact h3

/-- Settles O15: BUF byte j is byte j mod 4 of X[j div 4], and it reads as the byte just written. -/
theorem bufferByteInsideWord : Obligations.BufferByteInsideWord := by
  intro m j b x hj hx
  have hbyte := blockWord_byte hx (Nat.mod_lt j (by decide))
  have haddr : 4 * (BitVec.ofNat 4 (j / 4)).toNat + j % 4 = j := by
    rw [BitVec.toNat_ofNat]
    omega
  rw [haddr, Memory.read_write_same] at hbyte
  exact (Option.some.inj hbyte).symm

/-! ## The writers of DIGEST -/

/-- The core writes DIGEST only in OUT, which sets DONE, and by INIT, which leaves it without a value (R57, R203). -/
theorem CoreMove.digest_writers {s t : State} (h : CoreMove s t) (hne : t.digest ≠ s.digest) :
    (s.seq = .out ∧ t.done = true)
    ∨ (t.digest = none ∧ s.seq = .idle ∧ ∃ w, s.cmd = some w ∧ decodeCmd w = .ok .init) := by
  cases h with
  | out hq => exact .inl ⟨hq, rfl⟩
  | init w hq hc hd => exact .inr ⟨rfl, hq, w, hc, hd⟩
  | _ => exact absurd rfl hne

/-- Settles O38: the core's two writers of DIGEST, and reset. -/
theorem digestWriters : Obligations.DigestWriters := by
  intro s t h hne
  rcases (step_move h).agent with ⟨l, hm⟩ | ⟨rfl, hr⟩ | ⟨hs, -⟩
  · exact (hm.digest_writers hne).imp_right .inl
  · exact .inr (.inr ⟨rfl, hr⟩)
  · exact absurd (congrArg State.digest hs) hne

/-! ## The step ROM -/

/-- No move of the core writes the step ROM (R65). -/
theorem CoreMove.rom_eq {s t : State} (h : CoreMove s t) : t.rom = s.rom := by cases h <;> rfl

/-- Settles O41: the core keeps the ROM, so does reset, and no other host move touches the core. -/
theorem stepRomIsNeverWritten : Obligations.StepRomIsNeverWritten := by
  intro s t h
  rcases (step_move h).agent with ⟨l, hm⟩ | ⟨rfl, -⟩ | ⟨hs, -⟩
  · exact hm.rom_eq
  · rfl
  · rw [hs]

end Sys2Proof.Machine

/-! PROOFS of the family 30_encoding: the words the encoder makes, what the decoders accept and reject, the rows of the opcode
table, and the HASH line. -/

namespace Sys2Proof

/-! ## The step rows as one case -/

/-- A case for each row of the opcode table, with the round of a step as an operand. -/
theorem Instr.stepCases {motive : Instr → Prop} (init : motive .init) (absorb : ∀ d, motive (.absorb d))
    (finalize : motive .finalize) (step : ∀ (r : Round) t k n, motive (r.stepInstr t k n)) (i : Instr) : motive i :=
  match i with
  | .init => init
  | .absorb d => absorb d
  | .finalize => finalize
  | .stepF t k n => step .r1 t k n
  | .stepG t k n => step .r2 t k n
  | .stepH t k n => step .r3 t k n

@[simp] theorem encode_stepInstr (r : Round) (t : Slot) (k : BitVec 4) (n : BitVec 5) :
    encode (r.stepInstr t k n) = .uw16 (encodeUw r t k n) := by cases r <;> rfl

@[simp] theorem wellFormed_stepInstr (r : Round) (t : Slot) (k : BitVec 4) (n : BitVec 5) :
    (r.stepInstr t k n).wellFormed = (n != 0#5) := by cases r <;> rfl

/-- A microword is the word of steps only. -/
theorem stepInstr_of_encode_eq_uw16 {i : Instr} {u : Microword} (h : encode i = .uw16 u) :
    ∃ r t k n, i = Round.stepInstr r t k n ∧ encodeUw r t k n = u := by
  cases i using Instr.stepCases with
  | init | absorb | finalize => cases h
  | step r t k n => exact ⟨r, t, k, n, rfl, Encoded.uw16.inj ((encode_stepInstr r t k n).symm.trans h)⟩

/-! ## A word is its fields -/

/-- R72: the fields weigh what their places say. -/
theorem encodeUw_toNat (r : Round) (t : Slot) (k : BitVec 4) (n : BitVec 5) :
    (encodeUw r t k n).toNat = r.bits.toNat * 2 ^ 14 + t.bits.toNat * 2 ^ 12 + k.toNat * 2 ^ 8 + n.toNat := by
  have hf := uw_fields (encodeUw r t k n)
  simp only [uwRnd_encodeUw, uwSlot_encodeUw, uwK_encodeUw, uwRsvd_encodeUw, uwS_encodeUw, BitVec.toNat_zero] at hf
  omega

/-- R71: OPC stands 28 bits up, DATA at the bottom. -/
theorem encodeCmd_toNat (o : BitVec 4) (d : Byte) : (encodeCmd o d).toNat = o.toNat * 2 ^ 28 + d.toNat := by
  have hf := cmd_fields (encodeCmd o d)
  simp only [cmdOpc_encodeCmd, cmdRsvd_encodeCmd, cmdData_encodeCmd, BitVec.toNat_zero] at hf
  omega

/-- A UW16 word with RSVD = 0 is the word of the step its other fields name. -/
theorem encodeUw_fields {r : Round} {u : Microword} (hr : uwRnd u = r.bits) (hz : uwRsvd u = 0#3) :
    encodeUw r (Slot.ofBits (uwSlot u)) (uwK u) (uwS u) = u := by
  have hf := uw_fields u
  rw [hr, hz, BitVec.toNat_zero] at hf
  apply BitVec.eq_of_toNat_eq
  rw [encodeUw_toNat, Slot.bits_ofBits]
  omega

/-- A CMD32 word with RSVD = 0 is the word of its other fields. -/
theorem encodeCmd_fields {w : CommandWord} (hz : cmdRsvd w = 0#20) : encodeCmd (cmdOpc w) (cmdData w) = w := by
  have hf := cmd_fields w
  rw [hz, BitVec.toNat_zero] at hf
  apply BitVec.eq_of_toNat_eq
  rw [encodeCmd_toNat]
  omega

theorem Round.bits_injective : Function.Injective Round.bits := by
  intro r r' h
  cases r <;> cases r' <;> simp_all [Round.bits]

/-- No two steps have one word, S = 0 included. -/
theorem stepInstr_eq_of_encodeUw_eq {r r' : Round} {t t' : Slot} {k k' : BitVec 4} {n n' : BitVec 5}
    (h : encodeUw r t k n = encodeUw r' t' k' n') : r.stepInstr t k n = r'.stepInstr t' k' n' := by
  obtain rfl : r = r' := Round.bits_injective (by simpa using congrArg uwRnd h)
  obtain rfl : t = t' := by simpa using congrArg (fun u => Slot.ofBits (uwSlot u)) h
  obtain rfl : k = k' := by simpa using congrArg uwK h
  obtain rfl : n = n' := by simpa using congrArg uwS h
  rfl

/-! ## decode_cmd, an equation for each opcode -/

section
variable {w : CommandWord}

theorem decodeCmd_opc1 (ho : cmdOpc w = 1#4) :
    decodeCmd w = if cmdRsvd w = 0#20 ∧ cmdData w = 0#8 then .ok .init else .error .reservedField := by
  by_cases hz : cmdRsvd w = 0#20 <;> by_cases hd : cmdData w = 0#8 <;> simp [decodeCmd, ho, hz, hd]

theorem decodeCmd_opc2 (ho : cmdOpc w = 2#4) :
    decodeCmd w = if cmdRsvd w = 0#20 then .ok (.absorb (cmdData w)) else .error .reservedField := by
  by_cases hz : cmdRsvd w = 0#20 <;> simp [decodeCmd, ho, hz]

theorem decodeCmd_opc3 (ho : cmdOpc w = 3#4) :
    decodeCmd w = if cmdRsvd w = 0#20 ∧ cmdData w = 0#8 then .ok .finalize else .error .reservedField := by
  by_cases hz : cmdRsvd w = 0#20 <;> by_cases hd : cmdData w = 0#8 <;> simp [decodeCmd, ho, hz, hd]

theorem decodeCmd_opcOther (ho : cmdOpc w ≠ 1#4 ∧ cmdOpc w ≠ 2#4 ∧ cmdOpc w ≠ 3#4) :
    decodeCmd w = .error .illegalOpcode := if_pos ho

end

theorem cmdOpc_cases (w : CommandWord) :
    cmdOpc w = 1#4 ∨ cmdOpc w = 2#4 ∨ cmdOpc w = 3#4 ∨ (cmdOpc w ≠ 1#4 ∧ cmdOpc w ≠ 2#4 ∧ cmdOpc w ≠ 3#4) := by tauto

/-! ## Fields compared as numbers -/

section
variable {w : CommandWord} {u : Microword}

theorem cmdOpc_eq_iff {o : BitVec 4} : cmdOpc w = o ↔ w.toNat / 2 ^ 28 = o.toNat := by
  obtain ⟨hf, -, -⟩ := cmd_fields w
  rw [← hf, BitVec.toNat_inj]

theorem cmdRsvd_eq_zero_iff : cmdRsvd w = 0#20 ↔ w.toNat / 2 ^ 8 % 2 ^ 20 = 0 := by
  obtain ⟨-, hf, -⟩ := cmd_fields w
  rw [← hf, ← BitVec.toNat_inj, BitVec.toNat_zero]

theorem cmdData_eq_zero_iff : cmdData w = 0#8 ↔ w.toNat % 2 ^ 8 = 0 := by
  obtain ⟨-, -, hf⟩ := cmd_fields w
  rw [← hf, ← BitVec.toNat_inj, BitVec.toNat_zero]

theorem uwRnd_eq_iff {x : BitVec 2} : uwRnd u = x ↔ u.toNat / 2 ^ 14 = x.toNat := by
  obtain ⟨hf, -, -, -, -⟩ := uw_fields u
  rw [← hf, BitVec.toNat_inj]

theorem uwRsvd_eq_zero_iff : uwRsvd u = 0#3 ↔ u.toNat / 2 ^ 5 % 8 = 0 := by
  obtain ⟨-, -, -, hf, -⟩ := uw_fields u
  rw [← hf, ← BitVec.toNat_inj, BitVec.toNat_zero]

theorem uwS_eq_zero_iff : uwS u = 0#5 ↔ u.toNat % 32 = 0 := by
  obtain ⟨-, -, -, -, hf⟩ := uw_fields u
  rw [← hf, ← BitVec.toNat_inj, BitVec.toNat_zero]

end

/-! ## What the decoders reject -/

/-- R76, field by field. -/
theorem decodeUw_error_iff (u : Microword) :
    (∃ why, decodeUw u = .error why) ↔ uwRnd u = 3#2 ∨ uwRsvd u ≠ 0#3 ∨ uwS u = 0#5 := by
  unfold decodeUw
  split_ifs <;> simp [*]

/-- R75, the first check. -/
theorem decodeCmd_illegalOpcode_iff (w : CommandWord) :
    decodeCmd w = .error .illegalOpcode ↔ cmdOpc w ≠ 1#4 ∧ cmdOpc w ≠ 2#4 ∧ cmdOpc w ≠ 3#4 := by
  rcases cmdOpc_cases w with ho | ho | ho | ho
  · simp [decodeCmd_opc1 ho, ho, ite_eq_iff]
  · simp [decodeCmd_opc2 ho, ho, ite_eq_iff]
  · simp [decodeCmd_opc3 ho, ho, ite_eq_iff]
  · simp [decodeCmd_opcOther ho, ho]

/-- R75, the second and third checks, on a word that passes the first. -/
theorem decodeCmd_reservedField_iff (w : CommandWord) :
    decodeCmd w = .error .reservedField ↔
      (cmdOpc w = 1#4 ∨ cmdOpc w = 2#4 ∨ cmdOpc w = 3#4) ∧ (cmdRsvd w ≠ 0#20 ∨ (cmdOpc w ≠ 2#4 ∧ cmdData w ≠ 0#8)) := by
  rcases cmdOpc_cases w with ho | ho | ho | ho
  · simp [decodeCmd_opc1 ho, ho, imp_iff_not_or]
  · simp [decodeCmd_opc2 ho, ho]
  · simp [decodeCmd_opc3 ho, ho, imp_iff_not_or]
  · simp [decodeCmd_opcOther ho, ho]

end Sys2Proof

namespace Sys2Proof.Machine

/-! ## What the decoders accept -/

theorem decodeUw_encodeUw (r : Round) (t : Slot) (k : BitVec 4) {n : BitVec 5} (hn : n ≠ 0#5) :
    decodeUw (encodeUw r t k n) = .ok (r.stepInstr t k n) := by
  cases r <;> simp [decodeUw, Round.bits, Round.stepInstr, hn]

/-- decode_uw gives an instruction only for the instruction's own word, and only if it is well-formed. -/
theorem encode_of_decodeUw {u : Microword} {i : Instr} (h : decodeUw u = .ok i) :
    i.wellFormed = true ∧ encode i = .uw16 u := by
  obtain ⟨r, rfl, hs, hr⟩ := decodeUw_cases h
  have hz : uwRsvd u = 0#3 := by
    by_contra hne
    obtain ⟨why, he⟩ := (decodeUw_error_iff u).2 (.inr (.inl hne))
    simp [he] at h
  simp [hs, encodeUw_fields hr hz]

/-- decode_cmd gives a command only for the command's own word. -/
theorem encode_of_decodeCmd {w : CommandWord} {i : Instr} (h : decodeCmd w = .ok i) : encode i = .cmd32 w := by
  rcases cmdOpc_cases w with ho | ho | ho | ho
  · rw [decodeCmd_opc1 ho] at h
    split_ifs at h with hf
    obtain ⟨hz, hd⟩ := hf
    cases h
    rw [encode, ← ho, ← hd, encodeCmd_fields hz]
  · rw [decodeCmd_opc2 ho] at h
    split_ifs at h with hz
    cases h
    rw [encode, ← ho, encodeCmd_fields hz]
  · rw [decodeCmd_opc3 ho] at h
    split_ifs at h with hf
    obtain ⟨hz, hd⟩ := hf
    cases h
    rw [encode, ← ho, ← hd, encodeCmd_fields hz]
  · simp [decodeCmd_opcOther ho] at h

theorem toOption_eq_some_iff {ε α : Type} {x : Except ε α} {a : α} : x.toOption = some a ↔ x = .ok a := by
  cases x <;> simp [Except.toOption]

/-- Every well-formed instruction is what its word decodes to. -/
theorem decode_encode {i : Instr} (h : i.wellFormed = true) : decode (encode i) = some i := by
  cases i using Instr.stepCases with
  | init | finalize => rfl
  | absorb d => simp [encode, decode, decodeCmd_opc2, toOption_eq_some_iff]
  | step r t k n =>
    rw [encode_stepInstr, decode, toOption_eq_some_iff]
    exact decodeUw_encodeUw r t k (by simpa using h)

/-- On both interfaces, a word decodes to the well-formed instruction it encodes and to nothing else. -/
theorem decode_eq_some_iff {e : Encoded} {i : Instr} : decode e = some i ↔ i.wellFormed = true ∧ encode i = e := by
  constructor
  · intro h
    cases e with
    | cmd32 w =>
      have hd := toOption_eq_some_iff.1 h
      refine ⟨?_, encode_of_decodeCmd hd⟩
      rcases decodeCmd_cases hd with rfl | rfl | rfl <;> rfl
    | uw16 u => exact encode_of_decodeUw (toOption_eq_some_iff.1 h)
  · rintro ⟨hw, rfl⟩
    exact decode_encode hw

theorem decodeCmd_eq_ok_iff {w : CommandWord} {i : Instr} : decodeCmd w = .ok i ↔ encode i = .cmd32 w := by
  refine ⟨encode_of_decodeCmd, fun h => ?_⟩
  have hw : i.wellFormed = true := by
    cases i using Instr.stepCases with
    | init | absorb | finalize => rfl
    | step => simp at h
  exact toOption_eq_some_iff.1 (decode_eq_some_iff.2 ⟨hw, h⟩)

theorem decodeUw_eq_ok_iff {u : Microword} {i : Instr} : decodeUw u = .ok i ↔ i.wellFormed = true ∧ encode i = .uw16 u :=
  toOption_eq_some_iff.symm.trans (decode_eq_some_iff (e := .uw16 u))

/-! ## The round trips -/

/-- Settles O1: `decode_encode`. -/
theorem decodeOfEncodeIsTheInstr : Obligations.DecodeOfEncodeIsTheInstr := fun _ => decode_encode

/-- Settles O2: one half of `decode_eq_some_iff`. -/
theorem encodeOfDecodeIsTheWord : Obligations.EncodeOfDecodeIsTheWord := fun _ _ => decode_eq_some_iff.1

/-! ## The command patterns -/

theorem encode_init : encode .init = .cmd32 0x10000000#32 := rfl

theorem encode_finalize : encode .finalize = .cmd32 0x30000000#32 := rfl

/-- `0x20000000 + d`, the number of ABSORB's word (R75). -/
theorem encodeCmd_absorb_toNat (d : Byte) : (encodeCmd 2#4 d).toNat = 0x20000000 + d.toNat := encodeCmd_toNat 2#4 d

section
variable {n : Nat} (hn : n < 256)
include hn

/-- An ABSORB word as the list of legal words writes it. -/
theorem absorbWord_toNat : (0x20000000#32 + BitVec.ofNat 32 n).toNat = 0x20000000 + n := by
  rw [BitVec.toNat_add, BitVec.toNat_ofNat, BitVec.toNat_ofNat]
  omega

theorem absorbWord_eq_encodeCmd : 0x20000000#32 + BitVec.ofNat 32 n = encodeCmd 2#4 (BitVec.ofNat 8 n) := by
  apply BitVec.eq_of_toNat_eq
  rw [absorbWord_toNat hn, encodeCmd_absorb_toNat, BitVec.toNat_ofNat, Nat.mod_eq_of_lt hn]

/-- ABSORB's words are the numbers from 0x20000000 to 0x200000FF. -/
theorem absorbWord_ne {w : CommandWord} (hw : w.toNat < 0x20000000 ∨ 0x20000100 ≤ w.toNat) :
    0x20000000#32 + BitVec.ofNat 32 n ≠ w := by
  rintro rfl
  rw [absorbWord_toNat hn] at hw
  omega

end

/-- The legal words are the words decode_cmd takes. -/
theorem decodeCmd_ok_iff_mem (w : CommandWord) : (∃ i, decodeCmd w = .ok i) ↔ w ∈ legalCommandWords := by
  simp only [decodeCmd_eq_ok_iff, legalCommandWords, List.mem_cons, List.mem_map, List.mem_range]
  constructor
  · rintro ⟨i, hi⟩
    cases i using Instr.stepCases with
    | init => exact .inl (Encoded.cmd32.inj hi).symm
    | absorb d =>
      refine .inr (.inr ⟨d.toNat, d.isLt, ?_⟩)
      rw [absorbWord_eq_encodeCmd d.isLt, BitVec.ofNat_toNat, BitVec.setWidth_eq]
      exact Encoded.cmd32.inj hi
    | finalize => exact .inr (.inl (Encoded.cmd32.inj hi).symm)
    | step => simp at hi
  · rintro (rfl | rfl | ⟨n, hn, rfl⟩)
    · exact ⟨.init, rfl⟩
    · exact ⟨.finalize, rfl⟩
    · exact ⟨.absorb (BitVec.ofNat 8 n), by rw [absorbWord_eq_encodeCmd hn, encode]⟩

theorem legalCommandWords_nodup : legalCommandWords.Nodup := by
  simp only [legalCommandWords, List.nodup_cons, List.mem_cons, List.mem_map, List.mem_range, not_or, not_exists, not_and]
  refine ⟨⟨by decide, fun n hn => absorbWord_ne hn (by decide)⟩, fun n hn => absorbWord_ne hn (by decide),
    List.Nodup.map_on (fun n hn m hm he => ?_) List.nodup_range⟩
  have hnum := congrArg BitVec.toNat he
  rw [absorbWord_toNat (List.mem_range.1 hn), absorbWord_toNat (List.mem_range.1 hm)] at hnum
  omega

/-- Settles O3: a legal word is the word the encoder makes, and an illegal one fails a check on its fields. -/
theorem commandPatternsAreExact : Obligations.CommandPatternsAreExact := by
  refine ⟨fun w => ⟨?_, fun d => ?_, ?_, ?_, ?_, decodeCmd_ok_iff_mem w⟩, legalCommandWords_nodup, by simp [legalCommandWords]⟩
  · rw [decodeCmd_eq_ok_iff, encode_init, Encoded.cmd32.injEq, eq_comm]
  · rw [decodeCmd_eq_ok_iff, encode, Encoded.cmd32.injEq, ← encodeCmd_absorb_toNat, BitVec.toNat_inj, eq_comm]
  · rw [decodeCmd_eq_ok_iff, encode_finalize, Encoded.cmd32.injEq, eq_comm]
  · rw [decodeCmd_illegalOpcode_iff]
    simp only [ne_eq, cmdOpc_eq_iff, BitVec.reduceToNat]
  · rw [decodeCmd_reservedField_iff]
    simp only [ne_eq, cmdOpc_eq_iff, cmdRsvd_eq_zero_iff, cmdData_eq_zero_iff, BitVec.reduceToNat]

/-! ## The microword patterns -/

/-- A masked microword is a row's match exactly when RND is the round's and RSVD is 0. -/
theorem and_mask_eq_uwMatch_iff (u : Microword) (r : Round) :
    u &&& 0xC0E0#16 = uwMatch r ↔ uwRnd u = r.bits ∧ uwRsvd u = 0#3 := by
  have hmatch : ∀ (x : BitVec 2) (y : BitVec 3), ((x ++ 0#6) ++ y) ++ 0#5 = uwMatch r ↔ x = r.bits ∧ y = 0#3 := by
    cases r <;> decide
  rw [uw_mask, hmatch]

/-- decode_uw gives a step exactly for the step's own word, and only with S ≠ 0. -/
theorem decodeUw_stepInstr_iff {u : Microword} {r : Round} {t : Slot} {k : BitVec 4} {n : BitVec 5} :
    decodeUw u = .ok (r.stepInstr t k n) ↔ n ≠ 0#5 ∧ encodeUw r t k n = u := by
  simp [decodeUw_eq_ok_iff]

/-- No word of the ROM is reserved (R171). -/
theorem stepRom_fields (j : Fin 48) :
    uwRnd stepRom[j.val] ≠ 3#2 ∧ uwRsvd stepRom[j.val] = 0#3 ∧ uwS stepRom[j.val] ≠ 0#5 := by
  revert j
  decide

/-- Settles O4: mask and match fix RND and RSVD, and the other fields are free but for S ≠ 0. -/
theorem microwordPatternsAreExact : Obligations.MicrowordPatternsAreExact := by
  refine ⟨fun u r => ⟨?_, fun t k n h => ?_⟩, fun u => ?_, fun j => ?_⟩
  · rw [and_mask_eq_uwMatch_iff, ne_eq, ← uwS_eq_zero_iff]
    simp only [decodeUw_stepInstr_iff]
    constructor
    · rintro ⟨t, k, n, hn, rfl⟩
      simpa using hn
    · rintro ⟨⟨hr, hz⟩, hs⟩
      exact ⟨_, _, _, hs, encodeUw_fields hr hz⟩
  · obtain ⟨-, rfl⟩ := decodeUw_stepInstr_iff.1 h
    obtain ⟨-, hslot, hk, -, hs⟩ := uw_fields (encodeUw r t k n)
    rw [uwSlot_encodeUw] at hslot
    rw [uwK_encodeUw] at hk
    rw [uwS_encodeUw] at hs
    exact ⟨hslot, hk, hs⟩
  · rw [decodeUw_error_iff]
    simp only [ne_eq, uwRnd_eq_iff, uwRsvd_eq_zero_iff, uwS_eq_zero_iff, BitVec.reduceToNat]
  · cases hd : decodeUw stepRom[j.val] with
    | ok i => exact ⟨i, rfl⟩
    | error why =>
      obtain ⟨hr, hz, hs⟩ := stepRom_fields j
      rcases (decodeUw_error_iff _).1 ⟨why, hd⟩ with h | h | h
      · exact absurd h hr
      · exact absurd hz h
      · exact absurd h hs

/-- Settles O7: `encodeUw_toNat`. -/
theorem microwordIsItsFields : Obligations.MicrowordIsItsFields := encodeUw_toNat

/-! ## The rows of the opcode table -/

theorem opcodeRow_stepInstr (r : Round) (t : Slot) (k : BitVec 4) (n : BitVec 5) :
    opcodeRow (r.stepInstr t k n) = (16, 0xC0E0, (uwMatch r).toNat) := by cases r <;> rfl

theorem uwMatch_toNat_inj {r r' : Round} (h : (uwMatch r).toNat = (uwMatch r').toNat) : r = r' := by
  revert h
  cases r <;> cases r' <;> decide

theorem sameConstructor_stepInstr (r : Round) (t t' : Slot) (k k' : BitVec 4) (n n' : BitVec 5) :
    SameConstructor (r.stepInstr t k n) (r.stepInstr t' k' n') :=
  .inr (.inr (.inr ⟨r, t, k, n, t', k', n', rfl, rfl⟩))

/-- The table has one row for each constructor of Instr. -/
theorem opcodeRow_eq_iff {i j : Instr} : opcodeRow i = opcodeRow j ↔ SameConstructor i j := by
  constructor
  · intro h
    cases i using Instr.stepCases with
    | init =>
      cases j with
      | init => exact .inl ⟨rfl, rfl⟩
      | _ => simp [opcodeRow] at h
    | absorb d =>
      cases j with
      | absorb d' => exact .inr (.inl ⟨d, d', rfl, rfl⟩)
      | _ => simp [opcodeRow] at h
    | finalize =>
      cases j with
      | finalize => exact .inr (.inr (.inl ⟨rfl, rfl⟩))
      | _ => simp [opcodeRow] at h
    | step r t k n =>
      rw [opcodeRow_stepInstr] at h
      cases j using Instr.stepCases with
      | step r' t' k' n' =>
        rw [opcodeRow_stepInstr] at h
        obtain rfl : r = r' := uwMatch_toNat_inj (by simpa using h)
        exact sameConstructor_stepInstr r t t' k k' n n'
      | _ => simp [opcodeRow] at h
  · rintro (⟨rfl, rfl⟩ | ⟨d, d', rfl, rfl⟩ | ⟨rfl, rfl⟩ | ⟨r, t, k, n, t', k', n', rfl, rfl⟩)
    · rfl
    · rfl
    · rfl
    · rw [opcodeRow_stepInstr, opcodeRow_stepInstr]

/-- A row as a mask and a match on command words. -/
theorem inRow_cmd32_iff {w mask pattern : CommandWord} :
    (Encoded.cmd32 w).inRow (32, mask.toNat, pattern.toNat) ↔ w &&& mask = pattern := by
  simp [Encoded.inRow, Encoded.widthBits, ← BitVec.toNat_inj]

/-- A row as a mask and a match on microwords. -/
theorem inRow_uw16_iff {u mask pattern : Microword} :
    (Encoded.uw16 u).inRow (16, mask.toNat, pattern.toNat) ↔ u &&& mask = pattern := by
  simp [Encoded.inRow, Encoded.widthBits, ← BitVec.toNat_inj]

/-- A row that masks every bit holds its match alone. -/
theorem eq_of_inRow_full {e : Encoded} {pattern : CommandWord} (h : e.inRow (32, 0xFFFFFFFF, pattern.toNat)) :
    .cmd32 pattern = e := by
  cases e with
  | cmd32 w => rw [← (inRow_cmd32_iff (mask := BitVec.allOnes 32)).1 h, BitVec.and_allOnes]
  | uw16 u => cases h.1

theorem encode_of_inRow_absorb {e : Encoded} {d : Byte} (h : e.inRow (opcodeRow (.absorb d))) :
    ∃ d', encode (.absorb d') = e := by
  cases e with
  | cmd32 w =>
    have hw := inRow_cmd32_iff (mask := 0xFFFFFF00#32) (pattern := (2#4 ++ 0#20) ++ 0#8).1 h
    rw [absorb_mask, BitVec.append_left_inj] at hw
    have ho : cmdOpc w = 2#4 := by
      simpa only [BitVec.extractLsb'_append_eq_left] using congrArg (BitVec.extractLsb' 20 4) hw
    have hz : cmdRsvd w = 0#20 := by
      simpa only [BitVec.extractLsb'_append_eq_right] using congrArg (BitVec.extractLsb' 0 20) hw
    exact ⟨cmdData w, by rw [encode, ← ho, encodeCmd_fields hz]⟩
  | uw16 u => cases h.1

theorem encode_of_inRow_stepInstr {e : Encoded} {r : Round} {t : Slot} {k : BitVec 4} {n : BitVec 5}
    (h : e.inRow (opcodeRow (r.stepInstr t k n))) : ∃ t' k' n', encode (r.stepInstr t' k' n') = e := by
  rw [opcodeRow_stepInstr] at h
  cases e with
  | cmd32 w => cases h.1
  | uw16 u =>
    obtain ⟨hr, hz⟩ := (and_mask_eq_uwMatch_iff u r).1 (inRow_uw16_iff.1 h)
    exact ⟨_, _, _, by rw [encode_stepInstr, encodeUw_fields hr hz]⟩

/-- An instruction's word lies in its own row. -/
theorem encode_inRow (i : Instr) : (encode i).inRow (opcodeRow i) :=
  match i with
  | .init => Laws.RowOfEncoding.init
  | .absorb d => Laws.RowOfEncoding.absorb d
  | .finalize => Laws.RowOfEncoding.finalize
  | .stepF t k n => Laws.RowOfEncoding.stepF t k n
  | .stepG t k n => Laws.RowOfEncoding.stepG t k n
  | .stepH t k n => Laws.RowOfEncoding.stepH t k n

/-- No two instructions have one word. -/
theorem encode_injective : Function.Injective encode := by
  intro i j h
  cases he : encode j with
  | cmd32 w =>
    exact Except.ok.inj ((decodeCmd_eq_ok_iff.2 (h.trans he)).symm.trans (decodeCmd_eq_ok_iff.2 he))
  | uw16 u =>
    obtain ⟨r, t, k, n, rfl, hu⟩ := stepInstr_of_encode_eq_uw16 (h.trans he)
    obtain ⟨r', t', k', n', rfl, hu'⟩ := stepInstr_of_encode_eq_uw16 he
    exact stepInstr_eq_of_encodeUw_eq (hu.trans hu'.symm)

/-- An instruction that is not well-formed is a step, and its word has S = 0. -/
theorem encode_of_not_wellFormed {i : Instr} (h : ¬i.wellFormed = true) : ∃ u, encode i = .uw16 u ∧ uwS u = 0#5 := by
  cases i using Instr.stepCases with
  | init | absorb | finalize => exact absurd rfl h
  | step r t k n => exact ⟨encodeUw r t k n, encode_stepInstr r t k n, by simpa using h⟩

/-- The words of a row are those of the instructions of that row, S = 0 included. -/
theorem inRow_opcodeRow_iff {e : Encoded} {i : Instr} :
    e.inRow (opcodeRow i) ↔ ∃ j, SameConstructor i j ∧ encode j = e := by
  constructor
  · intro h
    cases i using Instr.stepCases with
    | init => exact ⟨.init, opcodeRow_eq_iff.1 rfl, eq_of_inRow_full (pattern := 0x10000000#32) h⟩
    | absorb d =>
      obtain ⟨d', he⟩ := encode_of_inRow_absorb h
      exact ⟨.absorb d', opcodeRow_eq_iff.1 rfl, he⟩
    | finalize => exact ⟨.finalize, opcodeRow_eq_iff.1 rfl, eq_of_inRow_full (pattern := 0x30000000#32) h⟩
    | step r t k n =>
      obtain ⟨t', k', n', he⟩ := encode_of_inRow_stepInstr h
      exact ⟨r.stepInstr t' k' n', sameConstructor_stepInstr r t t' k k' n n', he⟩
  · rintro ⟨j, hij, rfl⟩
    rw [opcodeRow_eq_iff.2 hij]
    exact encode_inRow j

/-- Settles O5: a row's words are those of its constructor's instructions, and no word is that of two instructions. -/
theorem opcodeRowsDoNotOverlap : Obligations.OpcodeRowsDoNotOverlap := by
  refine ⟨fun e i j hi hj => ?_, fun e i h => ?_, fun e i h => ?_⟩
  · obtain ⟨x, hx, rfl⟩ := inRow_opcodeRow_iff.1 hi
    obtain ⟨y, hy, hxy⟩ := inRow_opcodeRow_iff.1 hj
    rw [encode_injective hxy] at hy
    exact opcodeRow_eq_iff.1 ((opcodeRow_eq_iff.2 hx).trans (opcodeRow_eq_iff.2 hy).symm)
  · obtain ⟨-, rfl⟩ := decode_eq_some_iff.1 h
    exact encode_inRow i
  · obtain ⟨j, hj, rfl⟩ := inRow_opcodeRow_iff.1 h
    by_cases hw : j.wellFormed = true
    · exact .inl ⟨j, decode_encode hw, hj⟩
    · obtain ⟨u, hu, hs⟩ := encode_of_not_wellFormed hw
      exact .inr ⟨u, hu, uwS_eq_zero_iff.1 hs⟩

/-! ## The HASH line -/

theorem asciiBytes_of_ascii {t : List Char} (h : ∀ c ∈ t, c.toNat < 128) :
    asciiBytes t = some (t.map fun c => BitVec.ofNat 8 c.toNat) := by
  induction t with
  | nil => rfl
  | cons c cs ih =>
    rw [List.forall_mem_cons] at h
    simp [asciiBytes, asciiByte, h.1, ih h.2]

/-- A string in its quotes, whatever its characters. -/
theorem readQuoted_quoted (t : List Char) : readQuoted ('"' :: (t ++ ['"'])) = asciiBytes t := by
  simp [readQuoted]

theorem assembleLine_hash (u : List Char) :
    assembleLine (['H', 'A', 'S', 'H', ' '] ++ u) = (readQuoted u).map hashExpansion := by
  simp [assembleLine, afterPrefix]

/-- Settles O8: the quoted text reads as its codes, which the HASH line wraps in INIT and FINALIZE. -/
theorem hashLineExpands : Obligations.HashLineExpands := by
  intro t h
  have hline := assembleLine_hash ('"' :: (t ++ ['"']))
  rw [readQuoted_quoted, asciiBytes_of_ascii h] at hline
  simpa [hashExpansion, absorbsExpansion, Function.comp_def] using hline

/-! ## Words of the spec -/

/-- Settles O6: each word is its instruction's encoding. -/
theorem wordsOfTheSpecDecode : Obligations.WordsOfTheSpecDecode :=
  ⟨decode_encode (i := .init) rfl, decode_encode (i := .absorb 0x61#8) rfl, decode_encode (i := .finalize) rfl,
    decode_encode (i := .stepF .b 3#4 19#5) rfl, decode_encode (i := .stepG .d 4#4 5#5) rfl,
    decode_encode (i := .stepH .c 4#4 11#5) rfl⟩

end Sys2Proof.Machine

/-! PROOFS of the family 40_padder: the padding that FINALIZE and PAD2 write to BUF, and the padding function. -/

namespace Sys2Proof.Machine

/-! ## The padding in BUF -/

/-- Byte i of a 64-bit value, counted from the least significant, as a number (R123). -/
theorem leBytes64_getElem? (v : BitVec 64) {i : Nat} (hi : i < 8) :
    (leBytes64 v)[i]? = some (BitVec.ofNat 8 (v.toNat / 2 ^ (8 * i))) := by
  have hbyte : (leBytes64 v)[i]? = some (v.extractLsb' (8 * i) 8) :=
    match i, hi with
    | 0, _ | 1, _ | 2, _ | 3, _ | 4, _ | 5, _ | 6, _ | 7, _ => rfl
  rw [hbyte, BitVec.extractLsb', Nat.shiftRight_eq_div_pow]

/-- FINALIZE while ERR = 0 and DONE = 0 is PADTAIL, which completes (R106, R228). -/
theorem exec_finalize_open {s : State} (he : s.err = false) (hd : s.done = false) :
    exec .finalize s = .next { s with
      buf := paddedTail s.buf s.bufcnt.toNat s.len
      cont := if s.bufcnt.toNat ≤ 55 then .out else .pad2, bufcnt := 0#6, seq := .loadv } :=
  (acceptUnlessDone_open he hd).trans (padTail_next s)

theorem read_paddedTail_marker (m : Memory) {r : Nat} (len : BitVec 64) (hr : r < 64) :
    Memory.read (paddedTail m r len) r = some 0x80#8 := by
  rw [read_paddedTail m len hr, if_neg (Nat.lt_irrefl r), if_pos rfl]

/-- The zeros after the 0x80 end where LEN begins, or at the end of the block that has no room for LEN. -/
theorem read_paddedTail_zero (m : Memory) {r a : Nat} (len : BitVec 64) (ha : r < a)
    (hend : a < if r ≤ 55 then 56 else 64) : Memory.read (paddedTail m r len) a = some 0#8 := by
  have h64 : a < 64 := by split at hend <;> omega
  have hlen : ¬(r ≤ 55 ∧ 56 ≤ a ∧ a < 64) := by split at hend <;> omega
  rw [read_paddedTail m len (ha.trans h64), if_neg (by omega), if_neg (by omega), if_neg hlen, if_pos h64]

theorem read_paddedTail_length (m : Memory) {r i : Nat} (len : BitVec 64) (hr : r ≤ 55) (hi : i < 8) :
    Memory.read (paddedTail m r len) (56 + i) = some (BitVec.ofNat 8 (len.toNat / 2 ^ (8 * i))) := by
  rw [read_paddedTail m len (by omega), if_neg (by omega), if_neg (by omega), if_pos (by omega),
    Nat.add_sub_cancel_left, leBytes64_getElem? len hi]

theorem read_secondPad_length (m : Memory) {i : Nat} (len : BitVec 64) (hi : i < 8) :
    Memory.read (secondPad m len) (56 + i) = some (BitVec.ofNat 8 (len.toNat / 2 ^ (8 * i))) := by
  rw [read_secondPad, if_neg (by omega), if_pos (by omega), Nat.add_sub_cancel_left, leBytes64_getElem? len hi]

/-- Settles O23: PADTAIL's buffer, range by range. -/
theorem finalizePadsTheTail : Obligations.FinalizePadsTheTail := by
  refine ⟨encode_finalize, fun s he hd => ?_⟩
  have hr : s.bufcnt.toNat < 64 := s.bufcnt.isLt
  exact ⟨_, exec_finalize_open he hd,
    fun a ha => read_paddedTail_outside s.len hr (by omega),
    read_paddedTail_marker s.buf s.len hr,
    fun a => read_paddedTail_zero s.buf s.len,
    fun hfits i => read_paddedTail_length s.buf s.len hfits,
    fun a ha => read_paddedTail_outside s.len hr (by omega),
    rfl⟩

/-- At PAD2 with no script the step writes the second padding block (R107). -/
theorem step_of_pad2 {s : State} (hh : s.host = []) (hq : s.seq = .pad2) :
    step s = .next { s with buf := secondPad s.buf s.len, cont := .out, seq := .loadv } := by
  rw [step_of_no_script hh, coreTransition, hq]
  exact padSecond_next s

/-- Settles O33: PAD2's buffer, range by range. -/
theorem pad2LoadsTheSecondBlock : Obligations.Pad2LoadsTheSecondBlock := fun s hh hq =>
  ⟨_, step_of_pad2 hh hq,
    fun a ha => by rw [read_secondPad, if_pos ha],
    fun i => read_secondPad_length s.buf s.len,
    fun a => read_secondPad_outside s.len,
    rfl⟩

/-! ## The padding function -/

@[simp] theorem length_pad (m : List Byte) : (pad m).length = m.length + 9 + padZeroCount m.length := by
  simp only [pad, List.length_append, List.length_singleton, length_zeros, length_leBytes64]
  omega

/-- The tail, the 0x80, the zeros and the length fill one block when the tail leaves room for them (R101). -/
theorem padZeroCount_of_le {n : Nat} (h : n % 64 ≤ 55) : padZeroCount n = 55 - n % 64 := by
  unfold padZeroCount
  omega

/-- Otherwise the zeros fill the tail's block and run on into the next (R101). -/
theorem padZeroCount_of_ge {n : Nat} (h : 56 ≤ n % 64) : padZeroCount n = 63 - n % 64 + 56 := by
  unfold padZeroCount
  omega

theorem padZeroCount_lt (n : Nat) : padZeroCount n < 64 := by
  unfold padZeroCount
  omega

/-- A padded message is whole blocks (R103). -/
theorem length_pad_mod (m : List Byte) : (pad m).length % 64 = 0 := by
  rw [length_pad, padZeroCount]
  omega

/-- Settles O53: the form is the definition's; the bounds are those of the number of zeros. -/
theorem paddedLength : Obligations.PaddedLength := by
  intro m
  have hlen := length_pad m
  have hz := padZeroCount_lt m.length
  exact ⟨rfl, hlen, length_pad_mod m, by omega, by omega⟩

/-- A block that lies inside the first part of a sequence does not see the rest. -/
theorem blockOf_append_left {p rest : List Byte} {i : Nat} (h : 64 * (i + 1) ≤ p.length) :
    blockOf (p ++ rest) i = blockOf p i := by
  rw [blockOf, List.drop_append_of_le_length (by omega), List.take_append_of_le_length (by rw [List.length_drop]; omega),
    blockOf]

/-- The 64 bytes after i whole blocks are block i. -/
theorem blockOf_append_middle {p b rest : List Byte} {i : Nat} (hp : p.length = 64 * i) (hb : b.length = 64) :
    blockOf (p ++ (b ++ rest)) i = b := by
  rw [blockOf, List.drop_left' hp, List.take_left' hb]

/-- The message up to its tail is its full blocks. -/
theorem length_take_full_blocks (m : List Byte) : (m.take (64 * (m.length / 64))).length = 64 * (m.length / 64) := by
  rw [List.length_take]
  omega

/-- The tail of the message with the 0x80 and k zeros after it. -/
theorem length_marked_tail (m : List Byte) (k : Nat) :
    (m.drop (64 * (m.length / 64)) ++ [0x80#8] ++ zeros k).length = m.length % 64 + 1 + k := by
  rw [List.length_append, List.length_append, List.length_drop, List.length_singleton, length_zeros]
  omega

/-- A tail of at most 55 bytes is padded to one block (R105). -/
theorem pad_one_tail_block {m : List Byte} (h : m.length % 64 ≤ 55) :
    pad m = m.take (64 * (m.length / 64))
      ++ (m.drop (64 * (m.length / 64)) ++ [0x80#8] ++ zeros (55 - m.length % 64) ++ leBytes64 (bitLength m.length)) := by
  simp only [pad, padZeroCount_of_le h, ← List.append_assoc, List.take_append_drop]

/-- A tail of at least 56 bytes is padded to two blocks (R105). -/
theorem pad_two_tail_blocks {m : List Byte} (h : 56 ≤ m.length % 64) :
    pad m = m.take (64 * (m.length / 64))
      ++ ((m.drop (64 * (m.length / 64)) ++ [0x80#8] ++ zeros (63 - m.length % 64))
        ++ (zeros 56 ++ leBytes64 (bitLength m.length))) := by
  simp only [pad, padZeroCount_of_ge h, zeros, ← List.replicate_append_replicate, ← List.append_assoc,
    List.take_append_drop]

/-- Settles O54: the full blocks lie in the message, and the tail is padded to one block or to two. -/
theorem tailDecomposition : Obligations.TailDecomposition := by
  rintro m _ _ rfl rfl
  have hfull := length_take_full_blocks m
  refine ⟨fun i hi => ?_, fun hr => ⟨?_, ?_⟩, fun hr => ⟨?_, ?_, ?_⟩⟩
  · rw [pad, List.append_assoc, List.append_assoc]
    exact blockOf_append_left (by omega)
  · rw [length_pad, padZeroCount_of_le hr]
    omega
  · rw [pad_one_tail_block hr, ← List.append_nil (_ ++ leBytes64 _)]
    exact blockOf_append_middle hfull (by rw [List.length_append, length_marked_tail, length_leBytes64]; omega)
  · rw [length_pad, padZeroCount_of_ge hr]
    omega
  · rw [pad_two_tail_blocks hr]
    exact blockOf_append_middle hfull (by rw [length_marked_tail]; omega)
  · rw [pad_two_tail_blocks hr, ← List.append_assoc, ← List.append_nil (zeros 56 ++ _)]
    exact blockOf_append_middle (by rw [List.length_append, hfull, length_marked_tail]; omega) rfl

end Sys2Proof.Machine

/-! PROOFS of the family 41_word_codec: the byte order of words, by number, and the round trips. -/

namespace Sys2Proof.Machine

/-! ## A word and its bytes as numbers -/

/-- Byte i of a word, counted from the least significant, as a number (R122). -/
theorem leBytes32_getElem?_ofNat (w : Word) {i : Nat} (hi : i < 4) :
    (leBytes32 w)[i]? = some (BitVec.ofNat 8 (w.toNat / 2 ^ (8 * i))) := by
  rw [leBytes32_getElem? w hi, BitVec.extractLsb', Nat.shiftRight_eq_div_pow]

/-- The bytes of a word are its digits in base 256. -/
theorem toNat_eq_sum_bytes (w : Word) :
    w.toNat = (w.extractLsb' 0 8).toNat + 2 ^ 8 * (w.extractLsb' 8 8).toNat
      + 2 ^ 16 * (w.extractLsb' 16 8).toNat + 2 ^ 24 * (w.extractLsb' 24 8).toNat := by
  have hw : w.toNat < 2 ^ 32 := w.isLt
  simp only [BitVec.extractLsb'_toNat, Nat.shiftRight_eq_div_pow]
  omega

/-- `le32` weighs its bytes by the powers of 256, b0 least (R120). -/
theorem toNat_le32 (b0 b1 b2 b3 : Byte) :
    (le32 b0 b1 b2 b3).toNat = b0.toNat + 2 ^ 8 * b1.toNat + 2 ^ 16 * b2.toNat + 2 ^ 24 * b3.toNat := by
  have hbytes := leBytes32_le32 b0 b1 b2 b3
  simp only [leBytes32, List.cons.injEq, and_true] at hbytes
  obtain ⟨h0, h1, h2, h3⟩ := hbytes
  rw [toNat_eq_sum_bytes, h0, h1, h2, h3]

/-- A word is made again from its bytes: both sides have the same digits (R124). -/
@[simp] theorem le32OfBytes_leBytes32 (w : Word) : le32OfBytes (leBytes32 w) = w :=
  BitVec.eq_of_toNat_eq ((toNat_le32 _ _ _ _).trans (toNat_eq_sum_bytes w).symm)

/-! ## The obligations -/

/-- Settles O10: word to bytes and back by the digits in base 256, bytes to word and back by the bit ranges. -/
theorem wordCodecRoundTrips : Obligations.WordCodecRoundTrips :=
  ⟨le32OfBytes_leBytes32, leBytes32_le32⟩

/-- Settles O11: the value of `le32`, the two lengths, and each byte of the two sequences. -/
theorem littleEndianByteOrder : Obligations.LittleEndianByteOrder :=
  ⟨toNat_le32, length_leBytes32, length_leBytes64, fun w _ => leBytes32_getElem?_ofNat w, fun v _ => leBytes64_getElem? v⟩

end Sys2Proof.Machine


/-! PROOFS of the family 42_step_engine: the mixers, the rotator, and what a step computes and leaves unchanged. -/

namespace Sys2Proof.Machine

/-! ## The mixers -/

section
variable (x y z v : Word) {i : Nat}

/-- f chooses y or z by x, at each bit (R140). -/
theorem getLsbD_mixF (hi : i < 32) :
    (mixF x y z).getLsbD i = if x.getLsbD i = true then y.getLsbD i else z.getLsbD i := by
  simp only [mixF, BitVec.getLsbD_or, BitVec.getLsbD_and, BitVec.getLsbD_not, hi, decide_true, Bool.true_and]
  cases x.getLsbD i <;> simp

/-- g is the majority of its operands, at each bit (R141). -/
theorem getLsbD_mixG :
    (mixG x y z).getLsbD i = decide (2 ≤ (x.getLsbD i).toNat + (y.getLsbD i).toNat + (z.getLsbD i).toNat) := by
  have hmajority : ∀ a b c : Bool, (a && b || a && c || b && c) = decide (2 ≤ a.toNat + b.toNat + c.toNat) := by decide
  simp only [mixG, BitVec.getLsbD_or, BitVec.getLsbD_and, hmajority]

/-- h is the parity of its operands, at each bit (R142). -/
theorem getLsbD_mixH :
    (mixH x y z).getLsbD i
      = decide (((x.getLsbD i).toNat + (y.getLsbD i).toNat + (z.getLsbD i).toNat) % 2 = 1) := by
  have hparity : ∀ a b c : Bool, (a ^^ b ^^ c) = decide ((a.toNat + b.toNat + c.toNat) % 2 = 1) := by decide
  simp only [mixH, BitVec.getLsbD_xor, hparity]

/-- Each mixer gives back a word that stands in all three places: the choice, the majority and the parity of one bit. -/
theorem mixer_self (r : Round) : mixer r v v v = v := by
  apply BitVec.eq_of_getLsbD_eq
  intro i hi
  cases r with
  | r1 => exact (getLsbD_mixF v v v hi).trans (ite_self _)
  | r2 => exact (getLsbD_mixG v v v).trans (by cases v.getLsbD i <;> rfl)
  | r3 => exact (getLsbD_mixH v v v).trans (by cases v.getLsbD i <;> rfl)

end

/-- Settles O12: the formulas are the definitions, and each bit is the choice, the majority and the parity. -/
theorem mixersPerBit : Obligations.MixersPerBit := fun x y z =>
  ⟨rfl, rfl, rfl, fun _ hi => ⟨getLsbD_mixF x y z hi, getLsbD_mixG x y z, getLsbD_mixH x y z⟩⟩

/-! ## The rotator -/

/-- Below the width of a word the rotator's data path is the library's rotation. -/
theorem rotlBits_eq_rotateLeft (x : Word) {n : Nat} (hn : n < 32) : rotlBits x n = x.rotateLeft n :=
  (BitVec.rotateLeft_eq_rotateLeftAux_of_lt hn).symm

/-- Bit i of a rotated word is bit i - n of the word, counted round its 32 bits (R144). -/
theorem getLsbD_rotlBits (x : Word) {n i : Nat} (hn : n < 32) (hi : i < 32) :
    (rotlBits x n).getLsbD i = x.getLsbD ((i + 32 - n) % 32) := by
  rw [rotlBits_eq_rotateLeft x hn, BitVec.getLsbD_rotateLeft_of_le hn]
  by_cases h : i < n
  · rw [show (i + 32 - n) % 32 = 32 - n + i by omega]
    simp [h]
  · rw [show (i + 32 - n) % 32 = i - n by omega]
    simp [h, hi]

theorem rotl_refused (x : Word) {n : Nat} (h : n = 0 ∨ 32 ≤ n) : rotl x n = .refused .rotateAmountUndefined :=
  if_neg (by omega)

/-- The rotate amounts of the ROM are those of the three cycles (R171). -/
theorem stepRom_rotate (j : Fin 48) : (uwS stepRom[j.val]).toNat ∈ [3, 5, 7, 9, 11, 13, 15, 19] := by
  revert j
  decide

/-- Settles O13: the data path bit by bit, the refusal outside 1..31, and the amounts of the ROM's 48 words. -/
theorem rotatorMovesBits : Obligations.RotatorMovesBits :=
  ⟨fun x _ hlo hhi => ⟨rotl_next ⟨hlo, hhi⟩, fun _ => getLsbD_rotlBits x (Nat.lt_succ_of_le hhi)⟩,
    fun x _ => rotl_refused x, stepRom_rotate⟩

/-! ## Register selection -/

/-- The next slot's number is one more modulo 4 (R149). -/
theorem bits_nextSlot (t : Slot) : (nextSlot t).bits = t.bits + 1#2 := by cases t <;> rfl

/-! ## What a step computes -/

/-- R150 to R152 at once: on a written block word a step rotates its four-operand sum into V[SLOT]. -/
theorem exec_stepInstr_next {r : Round} {t : Slot} {k : BitVec 4} {n : BitVec 5} {s : State} {b0 b1 b2 b3 : Byte} (hn : n ≠ 0#5)
    (h0 : Memory.read s.buf (4 * k.toNat) = some b0) (h1 : Memory.read s.buf (4 * k.toNat + 1) = some b1)
    (h2 : Memory.read s.buf (4 * k.toNat + 2) = some b2) (h3 : Memory.read s.buf (4 * k.toNat + 3) = some b3) :
    exec (r.stepInstr t k n) s
      = .next { s with v := writeSlot s.v t ((stepSum r s.v t (le32 b0 b1 b2 b3)).rotateLeft n.toNat) } := by
  rw [exec_stepInstr, roundStep_next hn (blockWord_next h0 h1 h2 h3), rotlBits_eq_rotateLeft _ n.isLt]

/-- Round 1 adds no constant (R148). -/
theorem stepSum_r1 (v : Quad) (t : Slot) (x : Word) :
    stepSum .r1 v t x
      = readSlot v t + mixF (readSlot v (nextSlot t)) (readSlot v (nextSlot (nextSlot t)))
          (readSlot v (nextSlot (nextSlot (nextSlot t)))) + x :=
  BitVec.add_zero _

/-- A step's word under the UW16 mask is the match of its round's row. -/
theorem and_mask_of_encode_stepInstr {r : Round} {t : Slot} {k : BitVec 4} {n : BitVec 5} {u : Microword}
    (h : encode (r.stepInstr t k n) = .uw16 u) : u &&& 0xC0E0#16 = uwMatch r := by
  obtain rfl : encodeUw r t k n = u := Encoded.uw16.inj ((encode_stepInstr r t k n).symm.trans h)
  exact (and_mask_eq_uwMatch_iff _ r).2 ⟨uwRnd_encodeUw r t k n, uwRsvd_encodeUw r t k n⟩

/-- Settles O16: the step of round 1, whose constant is 0. -/
theorem stepFComputesRound1 : Obligations.StepFComputesRound1 := by
  refine ⟨fun s t k n b0 b1 b2 b3 hn h0 h1 h2 h3 => ?_, fun v => mixer_self v .r1, bits_nextSlot,
    fun t k n u => and_mask_of_encode_stepInstr (r := .r1)⟩
  have hstep := exec_stepInstr_next (r := .r1) (t := t) hn h0 h1 h2 h3
  rwa [stepSum_r1] at hstep

/-- Settles O17: the step of round 2. -/
theorem stepGComputesRound2 : Obligations.StepGComputesRound2 :=
  ⟨fun _ _ _ _ _ _ _ _ => exec_stepInstr_next (r := .r2), fun v => mixer_self v .r2, bits_nextSlot,
    fun _ _ _ _ => and_mask_of_encode_stepInstr (r := .r2)⟩

/-- Settles O18: the step of round 3. -/
theorem stepHComputesRound3 : Obligations.StepHComputesRound3 :=
  ⟨fun _ _ _ _ _ _ _ _ => exec_stepInstr_next (r := .r3), fun v => mixer_self v .r3, bits_nextSlot,
    fun _ _ _ _ => and_mask_of_encode_stepInstr (r := .r3)⟩

/-! ## What a step leaves unchanged -/

/-- Settles O19: a step that answers next has replaced V[SLOT] and nothing else (`roundStep_cases`). -/
theorem stepsChangeOnlyTheirSlot : Obligations.StepsChangeOnlyTheirSlot := by
  refine ⟨⟨rfl, rfl, rfl, rfl, bits_nextSlot⟩, fun _ => ⟨rfl, rfl, rfl, rfl⟩, fun _ _ => ⟨rfl, rfl, rfl, rfl⟩,
    fun r t k n s s' h => ?_⟩
  rw [exec_stepInstr] at h
  obtain ⟨-, x, -, rfl⟩ := roundStep_cases h
  exact ⟨fun u hu => readSlot_writeSlot_other s.v _ hu, fun _ => rfl, rfl, rfl, rfl, rfl, rfl, rfl, rfl, rfl, rfl, rfl, rfl, rfl,
    rfl, rfl⟩

end Sys2Proof.Machine

/-! PROOFS of the family 43_compressor: the step ROM, the transitions that compress a block, and the block as a whole. -/

namespace Sys2Proof.Machine

/-! ## The step ROM -/

theorem toNat_bits_round_le (r : Round) : r.bits.toNat ≤ 2 := by cases r <;> decide

/-- The index of step i of a round in the step ROM, 16r + i (R171). -/
def romIndex (r : Round) (i : Fin 16) : Fin 48 :=
  ⟨16 * r.bits.toNat + i.val, by have hr := toNat_bits_round_le r; omega⟩

/-- Every index of the ROM is a step of one of the three rounds. -/
theorem exists_romIndex (j : Fin 48) : ∃ r i, romIndex r i = j := by
  rcases Nat.lt_trichotomy (j.val / 16) 1 with h | h | h
  · exact ⟨.r1, ⟨j.val, by omega⟩, Fin.ext (Nat.zero_add j.val)⟩
  · exact ⟨.r2, ⟨j.val - 16, by omega⟩, Fin.ext (show 16 + (j.val - 16) = j.val by omega)⟩
  · exact ⟨.r3, ⟨j.val - 32, by omega⟩, Fin.ext (show 32 + (j.val - 32) = j.val by omega)⟩

/-- Word 16r + i of the ROM is the word of step i of the round (R171). -/
theorem stepRom_romIndex (r : Round) (i : Fin 16) : stepRom.toList[(romIndex r i).val]? = some (romWord r i) := by
  cases r <;> revert i <;> decide

theorem ofNat_shiftLeft (w x n : Nat) : BitVec.ofNat w (x <<< n) = BitVec.ofNat w x <<< n := by
  apply BitVec.eq_of_toNat_eq
  simp [Nat.shiftLeft_eq]

/-- The word of a step as R171 writes it, on numbers. -/
theorem romWord_eq_ofNat (r : Round) (i : Nat) :
    romWord r i = BitVec.ofNat 16 ((r.bits.toNat <<< 14) ||| ((slotOfStep i).bits.toNat <<< 12)
      ||| (wordIndexOfStep r i <<< 8) ||| rotateOfStep r i) := by
  simp only [romWord, BitVec.ofNat_or, ofNat_shiftLeft, BitVec.ofNat_toNat]

/-- SLOTSEQ as numbers (R170). -/
theorem bits_slotOfStep (i : Nat) : (slotOfStep i).bits.toNat = [0, 3, 2, 1].getD (i % 4) 0 := by
  have h : i % 4 < 4 := Nat.mod_lt i (by decide)
  unfold slotOfStep
  interval_cases i % 4 <;> rfl

/-- Settles O9: the table by computation, the formula word by word. -/
theorem stepRomWordsAreTheTable : Obligations.StepRomWordsAreTheTable := by
  refine ⟨by decide, fun r i => ?_⟩
  rw [← bits_slotOfStep]
  exact (stepRom_romIndex r i).trans (congrArg some (romWord_eq_ofNat r i))

/-- The instruction of step i of a round: the schedule of R170. -/
def scheduledInstr (r : Round) (i : Nat) : Instr :=
  r.stepInstr (slotOfStep i) (BitVec.ofNat 4 (wordIndexOfStep r i)) (BitVec.ofNat 5 (rotateOfStep r i))

theorem wordIndexOfStep_lt (r : Round) (i : Fin 16) : wordIndexOfStep r i < 16 := by
  cases r <;> revert i <;> decide

theorem rotateOfStep_range (r : Round) (i : Nat) : 0 < rotateOfStep r i ∧ rotateOfStep r i < 32 := by
  have h : i % 4 < 4 := Nat.mod_lt i (by decide)
  unfold rotateOfStep
  cases r <;> interval_cases i % 4 <;> decide

/-- Word 16r + i of the ROM decodes to the scheduled step (R171, R176). -/
theorem decodeUw_stepRom (r : Round) (i : Fin 16) : decodeUw stepRom[(romIndex r i).val] = .ok (scheduledInstr r i) := by
  rw [scheduledInstr, decodeUw_stepInstr_iff]
  cases r <;> revert i <;> decide

/-! ## The transitions of a block -/

/-- In the core's turn at LOADV the step is LOADV's transition (R173). -/
theorem step_of_loadv {s : State} (hturn : CoreTurn s) (hq : s.seq = .loadv) : step s = .next (loadV s) := by
  rw [step_of_coreTurn hturn, coreTransition, hq]

/-- In the core's turn at FEED the step is FEED's transition (R179). -/
theorem step_of_feed {s : State} (hturn : CoreTurn s) (hq : s.seq = .feed) : step s = .next (feedForward s) := by
  rw [step_of_coreTurn hturn, coreTransition, hq]

/-- Settles O31: `loadV`. -/
theorem loadvCopiesTheState : Obligations.LoadvCopiesTheState := fun _ hh => step_of_loadv (.inl hh)

/-- Settles O32: `feedForward`. -/
theorem feedAddsAndContinues : Obligations.FeedAddsAndContinues := by
  intro s hh hq
  rw [step_of_feed (.inl hh) hq]
  rfl

/-- On a block in BUF the scheduled instruction computes the step of the reference function (R146, R175). -/
theorem exec_scheduledInstr {s : State} (hfull : ∀ a, a < 64 → (Memory.read s.buf a).isSome = true) (r : Round) (i : Fin 16) :
    exec (scheduledInstr r i) s = .next { s with v := scheduledStep (wordOfBlock (blockBytes s.buf)) r s.v i } := by
  obtain ⟨hpos, hlt⟩ := rotateOfStep_range r i
  have hn : (BitVec.ofNat 5 (rotateOfStep r i)).toNat = rotateOfStep r i := by
    rw [BitVec.toNat_ofNat, Nat.mod_eq_of_lt hlt]
  have hne : BitVec.ofNat 5 (rotateOfStep r i) ≠ 0#5 := by
    rw [ne_eq, ← BitVec.toNat_inj, hn]
    exact Nat.ne_of_gt hpos
  rw [scheduledInstr, exec_stepInstr, roundStep_next hne (blockWord_of_full hfull (wordIndexOfStep_lt r i)), hn]
  rfl

/-- In the core's turn at step i of a round, the step is the scheduled one and seq advances (R176). -/
theorem step_of_romIndex {s : State} (hturn : CoreTurn s) (hrom : s.rom = stepRom)
    (hfull : ∀ a, a < 64 → (Memory.read s.buf a).isSome = true) {r : Round} {i : Fin 16} (hq : s.seq = .step (romIndex r i)) :
    step s = .next { s with
      v := scheduledStep (wordOfBlock (blockBytes s.buf)) r s.v i, seq := seqAfterStep (romIndex r i) } := by
  rw [step_of_coreTurn hturn, coreTransition, hq]
  simp only [stepTransition, fetchMicroword, hrom, decodeUw_stepRom, exec_scheduledInstr hfull, andThen_next]

/-- Settles O30: ROM word j is the word of a scheduled step. -/
theorem stepTransitionsComplete : Obligations.StepTransitionsComplete := by
  intro s j hh hq hrom hfull
  obtain ⟨r, i, rfl⟩ := exists_romIndex j
  exact ⟨_, _, decodeUw_stepRom r i, exec_scheduledInstr hfull r i, rfl, step_of_romIndex (.inl hh) hrom hfull hq⟩

/-! ## What a block's transitions leave unchanged -/

/-- From LOADV to FEED the core does not write BUF (R178). -/
theorem CoreMove.buf_kept_of_compressing {s t : State} (h : CoreMove s t) (hc : compressing s.seq = true) : t.buf = s.buf := by
  cases h with
  | absorbOpen _ _ hq | absorbFull _ _ hq | finalize _ hq | pad2 hq => simp [hq, compressing] at hc
  | _ => rfl

/-- During a STEP the core does not write H (R177). -/
theorem CoreMove.h_kept_of_step {s t : State} {j : Fin 48} (h : CoreMove s t) (hq : s.seq = .step j) : t.h = s.h := by
  by_contra hne
  rcases h.h_writers hne with hf | ⟨hi, -⟩
  · simp [hq] at hf
  · simp [hq] at hi

/-- Settles O39: the core keeps BUF and H there, and no host move but reset touches them. -/
theorem blockIsFrozenWhileCompressed : Obligations.BlockIsFrozenWhileCompressed := by
  intro s t h hnr
  rcases (step_move h).agent with ⟨l, hm⟩ | ⟨-, l, hr⟩ | ⟨hs, -⟩
  · exact ⟨hm.buf_kept_of_compressing, fun _ => hm.h_kept_of_step⟩
  · exact absurd hr (hnr l)
  · exact ⟨fun _ => by rw [hs], fun _ _ => by rw [hs]⟩

/-! ## A block as a whole -/

/-- A run that goes on where another ended. -/
theorem runSteps_trans {n m : Nat} {s t u : State} (hn : runSteps n s = .next t) (hm : runSteps m t = .next u) :
    runSteps (n + m) s = .next u := by
  rw [runSteps_add, hn, andThen_next, hm]

theorem runSteps_one {s t : State} (h : step s = .next t) : runSteps 1 s = .next t := by
  rw [runSteps_succ, h]
  rfl

/-- s with V and seq replaced: the part of the state that the steps of a block work on. -/
def engineAt (s : State) (v : Quad) (q : Seq) : State := { s with v := v, seq := q }

/-- Where seq stands with n steps of the block done: at STEP(n), or at FEED once all 48 are (R32). -/
def seqAtStep (n : Nat) : Seq := if h : n < 48 then .step ⟨n, h⟩ else .feed

theorem seqAtStep_val (j : Fin 48) : seqAtStep j.val = .step j := dif_pos j.isLt

theorem seqAfterStep_eq (j : Fin 48) : seqAfterStep j = seqAtStep (j.val + 1) := by
  by_cases h : j.val < 47
  · rw [seqAfterStep, dif_pos h, seqAtStep, dif_pos (by omega)]
  · rw [seqAfterStep, dif_neg h, seqAtStep, dif_neg (by omega)]

/-- The three rounds, chained, on a block (R174). -/
def threeRounds (block : List Byte) (v : Quad) : Quad :=
  roundPass (wordOfBlock block) .r3 (roundPass (wordOfBlock block) .r2 (roundPass (wordOfBlock block) .r1 v))

theorem compress_eq_addQuad (h : Quad) (block : List Byte) : compress h block = addQuad h (threeRounds block h) := rfl

/-- FEED on any V (R179). -/
theorem step_engineAt_feed {s : State} (hturn : CoreTurn s) (v : Quad) :
    step (engineAt s v .feed) = .next { s with h := addQuad s.h v, v := v, seq := seqAfterFeed s.cont } :=
  step_of_feed (s := engineAt s v .feed) hturn rfl

section
variable {s : State} (hturn : CoreTurn s) (hrom : s.rom = stepRom) (hfull : ∀ a, a < 64 → (Memory.read s.buf a).isSome = true)
include hturn hrom hfull

/-- One scheduled step, on any V (R176). -/
theorem step_engineAt_romIndex (r : Round) (i : Fin 16) (v : Quad) :
    step (engineAt s v (seqAtStep (romIndex r i).val))
      = .next (engineAt s (scheduledStep (wordOfBlock (blockBytes s.buf)) r v i) (seqAtStep ((romIndex r i).val + 1))) := by
  rw [← seqAfterStep_eq]
  exact step_of_romIndex (s := engineAt s v _) hturn hrom hfull (seqAtStep_val (romIndex r i))

/-- n steps from the first of a round run the round's first n steps (R172). -/
theorem runSteps_first_of_round (r : Round) (v : Quad) {n : Nat} (hn : n ≤ 16) :
    runSteps n (engineAt s v (seqAtStep (16 * r.bits.toNat)))
      = .next (engineAt s ((List.range n).foldl (scheduledStep (wordOfBlock (blockBytes s.buf)) r) v)
          (seqAtStep (16 * r.bits.toNat + n))) := by
  induction n with
  | zero => rfl
  | succ n ih =>
    refine runSteps_trans (ih (by omega)) (runSteps_one ?_)
    rw [List.range_succ, List.foldl_append]
    exact step_engineAt_romIndex hturn hrom hfull r ⟨n, hn⟩ _

/-- Sixteen steps from the first of a round are the round, and lead to what follows it (R172). -/
theorem runSteps_round (r : Round) (v : Quad) :
    runSteps 16 (engineAt s v (seqAtStep (16 * r.bits.toNat)))
      = .next (engineAt s (roundPass (wordOfBlock (blockBytes s.buf)) r v) (seqAtStep (16 * r.bits.toNat + 16))) :=
  runSteps_first_of_round hturn hrom hfull r v (Nat.le_refl 16)

/-- The 48 steps from STEP(0) are the three rounds, each on the V the one before it left, and lead to FEED (R174). -/
theorem runSteps_rounds (v : Quad) :
    runSteps 48 (engineAt s v (.step 0)) = .next (engineAt s (threeRounds (blockBytes s.buf) v) .feed) :=
  have h1 := runSteps_round hturn hrom hfull .r1 v
  have h2 := runSteps_round hturn hrom hfull .r2 (roundPass (wordOfBlock (blockBytes s.buf)) .r1 v)
  have h3 := runSteps_round hturn hrom hfull .r3
    (roundPass (wordOfBlock (blockBytes s.buf)) .r2 (roundPass (wordOfBlock (blockBytes s.buf)) .r1 v))
  runSteps_trans (runSteps_trans h1 h2) h3

/-- In the core's turn, fifty steps from LOADV compress the block in BUF and change nothing else but V and seq (R180). -/
theorem runSteps_block (hq : s.seq = .loadv) :
    runSteps 50 s = .next { s with
      h := compress s.h (blockBytes s.buf), v := threeRounds (blockBytes s.buf) s.h, seq := seqAfterFeed s.cont } := by
  have hload : runSteps 1 s = .next (engineAt s s.h (.step 0)) := runSteps_one (step_of_loadv hturn hq)
  have hfeed := runSteps_one (step_engineAt_feed hturn (threeRounds (blockBytes s.buf) s.h))
  rw [compress_eq_addQuad]
  exact runSteps_trans (runSteps_trans hload (runSteps_rounds hturn hrom hfull s.h)) hfeed

end

/-- Settles O50: `runSteps_block`. -/
theorem blockTakesFiftyTransitions : Obligations.BlockTakesFiftyTransitions := fun _ hh hq hrom hfull =>
  ⟨_, runSteps_block (.inl hh) hrom hfull hq, rfl, rfl, rfl⟩

end Sys2Proof.Machine

/-! PROOFS of the family 44_serializer: the digest bytes OUT writes, and their place on the 128-bit bus. -/

namespace Sys2Proof.Machine

/-! ## The digest bytes -/

theorem serialize_eq_flatMap (h : Quad) : serialize h = [h.a, h.b, h.c, h.d].flatMap leBytes32 := rfl

/-- In a sequence of words written out one after the other, byte c of word k is byte 4k + c. -/
theorem flatMap_leBytes32_getElem? (ws : List Word) {k c : Nat} (hk : k < ws.length) (hc : c < 4) :
    (ws.flatMap leBytes32)[4 * k + c]? = (leBytes32 (ws.getD k 0#32))[c]? := by
  induction ws generalizing k with
  | nil => exact absurd hk (Nat.not_lt_zero k)
  | cons w ws ih =>
    rw [List.flatMap_cons]
    cases k with
    | zero =>
      rw [Nat.mul_zero, Nat.zero_add, List.getElem?_append_left (by simpa using hc)]
      rfl
    | succ k =>
      rw [List.getElem?_append_right (by rw [length_leBytes32]; omega), length_leBytes32,
        show 4 * (k + 1) + c - 4 = 4 * k + c by omega, List.getD_cons_succ]
      exact ih (Nat.lt_of_succ_lt_succ hk)

/-- Digest byte i is byte i mod 4 of the word H[i div 4], as a number (R201). -/
theorem getElem_digestOf (h : Quad) (i : Fin 16) :
    (digestOf h)[i.val]
      = BitVec.ofNat 8 (([h.a, h.b, h.c, h.d].getD (i.val / 4) 0#32).toNat / 2 ^ (8 * (i.val % 4))) := by
  have hk : i.val / 4 < [h.a, h.b, h.c, h.d].length := Nat.div_lt_of_lt_mul i.isLt
  have hc : i.val % 4 < 4 := Nat.mod_lt _ (by decide)
  have hbyte := flatMap_leBytes32_getElem? _ hk hc
  rw [Nat.div_add_mod, ← serialize_eq_flatMap, leBytes32_getElem?_ofNat _ hc] at hbyte
  exact (List.getElem_eq_iff _).2 hbyte

/-- In the core's turn at OUT the step is OUT's transition (R202). -/
theorem step_of_out {s : State} (hturn : CoreTurn s) (hq : s.seq = .out) : step s = .next (serializeOut s) := by
  rw [step_of_coreTurn hturn, coreTransition, hq]

/-- Settles O34: OUT's transition gives DIGEST the bytes of `digestOf`. -/
theorem outSerializesTheState : Obligations.OutSerializesTheState := fun s hh hq =>
  ⟨digestOf s.h, step_of_out (.inl hh) hq, getElem_digestOf s.h⟩

/-! ## The 128-bit bus -/

/-- The bus with its bytes moved up by one place and b put below them. -/
def pushBusByte (b : Byte) (acc : BitVec 128) : BitVec 128 := (acc <<< 8) ||| b.setWidth 128

theorem digestBus_eq_foldr (d : Vector Byte 16) : digestBus d = d.toList.foldr pushBusByte 0#128 := rfl

/-- The byte just put on the bus is the lowest. -/
theorem extractLsb'_zero_pushBusByte (b : Byte) (acc : BitVec 128) : (pushBusByte b acc).extractLsb' 0 8 = b := by
  ext j hj
  simp [pushBusByte, hj, show j < 128 by omega]

/-- The bytes already on the bus stand one place higher, as far as it is wide. -/
theorem extractLsb'_succ_pushBusByte (b : Byte) (acc : BitVec 128) {i : Nat} (hi : i + 1 < 16) :
    (pushBusByte b acc).extractLsb' (8 * (i + 1)) 8 = acc.extractLsb' (8 * i) 8 := by
  ext j hj
  have hwidth : 8 * (i + 1) + j < 128 := by omega
  have habove : 8 ≤ 8 * (i + 1) + j := by omega
  have hplace : 8 * (i + 1) + j - 8 = 8 * i + j := by omega
  simp [pushBusByte, hwidth, habove, hplace, BitVec.getLsbD_eq_getElem (show 8 * i + j < 128 by omega)]

/-- Bytes put on the bus from the last to the first stand there in order from bit 0 up. -/
theorem extractLsb'_foldr_pushBusByte (bs : List Byte) {i : Nat} (hi : i < bs.length) (hbus : i < 16) :
    (bs.foldr pushBusByte 0#128).extractLsb' (8 * i) 8 = bs[i] := by
  induction bs generalizing i with
  | nil => exact absurd hi (Nat.not_lt_zero i)
  | cons b bs ih =>
    rw [List.foldr_cons]
    cases i with
    | zero => exact extractLsb'_zero_pushBusByte b _
    | succ i =>
      rw [extractLsb'_succ_pushBusByte b _ hbus, List.getElem_cons_succ]
      exact ih (Nat.lt_of_succ_lt_succ hi) (Nat.lt_of_succ_lt hbus)

/-- Settles O59: the bus is the fold of the digest's bytes from the last to the first. -/
theorem digestBusPacking : Obligations.DigestBusPacking := by
  intro d i
  rw [digestBus_eq_foldr, extractLsb'_foldr_pushBusByte d.toList (by simp) i.isLt]
  simp

end Sys2Proof.Machine

/-! PROOFS of the family 45_host_commands: the invariant over every step, what the acceptance of a word does and how long it takes,
and the driver's run from INIT to the digest. -/

namespace Sys2Proof.Machine

/-! ## The invariant over a step -/

/-- The invariant does not speak of the port CMD, the log, the script and the host's record. -/
theorem Coherent.ports {s : State} (h : Coherent s) (cmd : Option CommandWord) (log : List FaultEntry) (host : List HostMove)
    (reads : List HostRead) : Coherent { s with cmd := cmd, faultLog := log, host := host, reads := reads } :=
  { h with }

theorem Coherent.takeCommand {s : State} (h : Coherent s) : Coherent (takeCommand s) := { h with }

theorem protocolCode_bits_range (code : ProtocolCode) : code.bits ≠ 0#4 ∧ code.bits.toNat ≤ 4 := by cases code <;> decide

/-- A protocol error at IDLE sets ERR and a code that is not 0 (R262). -/
theorem Coherent.raise {s : State} (h : Coherent s) (code : ProtocolCode) (hq : s.seq = .idle) :
    Coherent (raiseProtocolError code s) :=
  { h with
    errorCode := (protocolCode_bits_range code).imp_left (iff_of_true rfl)
    flagsAtIdle := fun _ => hq }

/-- INIT leaves what reset leaves but for BUF and V (R224). -/
theorem Coherent.startMessage {s : State} (h : Coherent s) : Coherent (startMessage s) :=
  { resetIsCoherent with
    bufCanonical := h.bufCanonical
    romFixed := h.romFixed
    blockWritten := fun hc => Bool.noConfusion hc
    tailWritten := fun j hj => absurd hj (Nat.not_lt_zero j) }

theorem Coherent.applyReset {s : State} (h : Coherent s) : Coherent (applyReset s) :=
  { resetIsCoherent with romFixed := h.romFixed }

section
variable {s : State} (h : Coherent s)
include h

/-- While the core is busy no message is finished and no error is raised. -/
theorem Coherent.flags_of_busy (hb : s.seq ≠ .idle) : s.done = false ∧ s.err = false := by
  simpa using mt h.flagsAtIdle hb

theorem Coherent.wf_write_at_bufcnt (d : Byte) : Memory.wf (Memory.write s.buf s.bufcnt.toNat d) = true :=
  Memory.wf_write d h.bufCanonical s.bufcnt.isLt

/-- After ABSORB's byte the open block is written up to that byte. -/
theorem Coherent.written_through_bufcnt (d : Byte) {j : Nat} (hj : j ≤ s.bufcnt.toNat) :
    (Memory.read (Memory.write s.buf s.bufcnt.toNat d) j).isSome = true := by
  rw [Memory.read_write]
  split
  · rfl
  · exact h.tailWritten j (by omega)

/-- While a message is open at IDLE, LEN counts 8 bits for each byte of the open block (R28, R29). -/
theorem Coherent.length_of_open (hq : s.seq = .idle) (hn : s.done = false) :
    s.len.toNat % 512 = 8 * s.bufcnt.toNat :=
  h.lengthCountsTail (by simp [h.contAtIdle hq, hn])

/-- ABSORB of a byte that leaves the block open (R226). -/
theorem Coherent.absorbOpen (d : Byte) (hq : s.seq = .idle) (hn : s.done = false) (hb : s.bufcnt ≠ 63#6) :
    Coherent { s with
      buf := Memory.write s.buf s.bufcnt.toNat d, len := s.len + 8#64, bufcnt := s.bufcnt + 1#6 } := by
  have hcnt : (s.bufcnt + 1#6).toNat = s.bufcnt.toNat + 1 := by bv_omega
  have hlen := h.length_of_open hq hn
  exact { h with
    bufCanonical := h.wf_write_at_bufcnt d
    blockWritten := fun hc => by simp [hq, compressing] at hc
    tailWritten := fun j hj => h.written_through_bufcnt d (by simp only [hcnt] at hj; omega)
    busyCountsNothing := fun hne => absurd hq hne
    lengthCountsTail := fun _ => by
      simp only [hcnt, BitVec.toNat_add, BitVec.toNat_ofNat]
      omega }

/-- ABSORB of a byte that completes the block (R226). -/
theorem Coherent.absorbFull (d : Byte) (hq : s.seq = .idle) (he : s.err = false) (hn : s.done = false) (hb : s.bufcnt = 63#6) :
    Coherent { s with
      buf := Memory.write s.buf s.bufcnt.toNat d, len := s.len + 8#64, bufcnt := 0#6, cont := .none, seq := .loadv } := by
  have hcnt : s.bufcnt.toNat = 63 := by rw [hb]; rfl
  have hlen := h.length_of_open hq hn
  exact { h with
    bufCanonical := h.wf_write_at_bufcnt d
    blockWritten := fun _ j hj => h.written_through_bufcnt d (by omega)
    tailWritten := fun j hj => absurd hj (Nat.not_lt_zero j)
    busyCountsNothing := fun _ => rfl
    lengthCountsTail := fun _ => by
      simp only [BitVec.toNat_add, BitVec.toNat_ofNat]
      omega
    flagsAtIdle := fun hf => by simp [he, hn] at hf
    contAtSeq := ⟨nofun, nofun⟩
    contAtIdle := nofun }

/-- PADTAIL (R106). -/
theorem Coherent.padTail (he : s.err = false) (hn : s.done = false) :
    Coherent { s with
      buf := paddedTail s.buf s.bufcnt.toNat s.len
      cont := if s.bufcnt.toNat ≤ 55 then .out else .pad2, bufcnt := 0#6, seq := .loadv } :=
  { h with
    bufCanonical := wf_paddedTail s.len s.bufcnt.isLt h.bufCanonical
    blockWritten := fun _ _ hj => paddedTail_written s.len s.bufcnt.isLt h.tailWritten hj
    tailWritten := fun j hj => absurd hj (Nat.not_lt_zero j)
    busyCountsNothing := fun _ => rfl
    lengthCountsTail := fun hc => by dsimp only at hc; split at hc <;> cases hc
    flagsAtIdle := fun hf => by simp [he, hn] at hf
    contAtSeq := ⟨nofun, nofun⟩
    contAtIdle := nofun }

/-- FEED (R179). -/
theorem Coherent.feedForward (hq : s.seq = .feed) : Coherent (feedForward s) := by
  obtain ⟨hn, he⟩ := h.flags_of_busy (by simp [hq])
  have hcnt := h.busyCountsNothing (by simp [hq])
  exact { h with
    blockWritten := fun _ => h.blockWritten (by simp [hq, compressing])
    busyCountsNothing := fun _ => hcnt
    digestValue := by simpa [hn] using h.digestValue
    flagsAtIdle := fun hf => by simp [he, hn] at hf
    contAtSeq := by cases hc : s.cont <;> simp [seqAfterFeed, hc]
    contAtIdle := by cases hc : s.cont <;> simp [seqAfterFeed, hc, hn] }

/-- LOADV and STEP: V changes, and seq stays between LOADV and FEED (R177). -/
theorem Coherent.engine (hc : compressing s.seq = true) (v : Quad) {q : Seq} (hq : compressing q = true) :
    Coherent { s with v := v, seq := q } := by
  have hb : s.seq ≠ .idle := fun hi => by simp [hi, compressing] at hc
  obtain ⟨hn, he⟩ := h.flags_of_busy hb
  exact { h with
    blockWritten := fun _ => h.blockWritten hc
    busyCountsNothing := fun _ => h.busyCountsNothing hb
    flagsAtIdle := fun hf => by simp [he, hn] at hf
    contAtSeq := by constructor <;> rintro rfl <;> cases hq
    contAtIdle := by rintro rfl; cases hq }

/-- PAD2 (R107). -/
theorem Coherent.padSecond (hq : s.seq = .pad2) :
    Coherent { s with buf := secondPad s.buf s.len, cont := .out, seq := .loadv } := by
  obtain ⟨hn, he⟩ := h.flags_of_busy (by simp [hq])
  have hcnt := h.busyCountsNothing (by simp [hq])
  exact { h with
    bufCanonical := wf_secondPad s.len h.bufCanonical
    blockWritten := fun _ _ hj => secondPad_written s.buf s.len hj
    tailWritten := fun j hj => by simp [hcnt] at hj
    busyCountsNothing := fun _ => hcnt
    lengthCountsTail := nofun
    flagsAtIdle := fun hf => by simp [he, hn] at hf
    contAtSeq := ⟨nofun, nofun⟩
    contAtIdle := nofun }

/-- OUT (R202). -/
theorem Coherent.serializeOut (hq : s.seq = .out) : Coherent (serializeOut s) :=
  { h with
    blockWritten := nofun
    busyCountsNothing := fun hb => absurd rfl hb
    digestValue := rfl
    flagsAtIdle := fun _ => rfl
    contAtSeq := ⟨nofun, nofun⟩
    contAtIdle := fun _ => h.contAtSeq.2 hq }

end

theorem compressing_seqAfterStep (j : Fin 48) : compressing (seqAfterStep j) = true := by
  unfold seqAfterStep
  split <;> rfl

/-- Every move of the core keeps the invariant. -/
theorem CoreMove.coherent {s t : State} (hm : CoreMove s t) (h : Coherent s) : Coherent t := by
  cases hm with
  | quiet => exact h
  | init => exact h.takeCommand.startMessage
  | locked => exact h.ports none _ s.host s.reads
  | illegal _ code hq | absorbLate _ _ hq | finalizeLate _ hq => exact h.takeCommand.raise _ hq
  | absorbOpen _ d hq _ _ _ hn hb => exact h.takeCommand.absorbOpen d hq hn hb
  | absorbFull _ d hq _ _ he hn hb => exact h.takeCommand.absorbFull d hq he hn hb
  | finalize _ _ _ _ he hn => exact h.takeCommand.padTail he hn
  | loadv hq => exact h.engine (by simp [hq, compressing]) _ rfl
  | step i _ _ _ _ _ hq => exact h.engine (by simp [hq, compressing]) _ (compressing_seqAfterStep i)
  | feed hq => exact h.feedForward hq
  | pad2 hq => exact h.padSecond hq
  | out hq => exact h.serializeOut hq

/-- Settles O48: each move of the core, reset, and the host moves that leave the core alone. -/
theorem stepKeepsCoherent : Obligations.StepKeepsCoherent := by
  intro s t h hstep
  rcases (step_move hstep).agent with ⟨l, hm⟩ | ⟨rfl, -⟩ | ⟨hs, -⟩
  · exact hm.coherent (h.ports s.cmd s.faultLog l s.reads)
  · exact (h.ports s.cmd s.faultLog s.host.tail s.reads).applyReset
  · rw [hs]
    exact h.ports t.cmd s.faultLog t.host t.reads

/-! ## INIT -/

/-- Settles O21: INIT answers `startMessage`, which reads nothing of what it writes. -/
theorem initStartsAMessage : Obligations.InitStartsAMessage := by
  refine ⟨encode_init, fun s => ⟨rfl, fun t ht => ?_⟩⟩
  obtain rfl : startMessage s = t := Host.Outcome.next.inj ht
  rfl

/-! ## ABSORB and FINALIZE by the flags -/

section
variable {s : State} (he : s.err = false)
include he

/-- A byte that leaves the block open (R226). -/
theorem exec_absorb_open (d : Byte) (hn : s.done = false) (hb : s.bufcnt ≠ 63#6) :
    exec (.absorb d) s = .next { s with
      buf := Memory.write s.buf s.bufcnt.toNat d, len := s.len + 8#64, bufcnt := s.bufcnt + 1#6 } := by
  rw [exec, execAbsorb, acceptUnlessDone_open he hn, absorbByte_next, if_neg hb]

/-- A byte that completes the block (R226). -/
theorem exec_absorb_full (d : Byte) (hn : s.done = false) (hb : s.bufcnt = 63#6) :
    exec (.absorb d) s = .next { s with
      buf := Memory.write s.buf s.bufcnt.toNat d, len := s.len + 8#64, bufcnt := 0#6, cont := .none, seq := .loadv } := by
  rw [exec, execAbsorb, acceptUnlessDone_open he hn, absorbByte_next, if_pos hb]

theorem exec_absorb_done (d : Byte) (hn : s.done = true) :
    exec (.absorb d) s = .next (raiseProtocolError .absorbAfterDone s) := acceptUnlessDone_done he hn

theorem exec_finalize_done (hn : s.done = true) :
    exec .finalize s = .next (raiseProtocolError .finalizeAfterDone s) := acceptUnlessDone_done he hn

end

/-! ## The acceptance of a word -/

section
variable {s : State} {w : CommandWord}

/-- A word that decodes runs its instruction once it is off CMD (R222). -/
theorem acceptWord_ok {i : Instr} (hd : decodeCmd w = .ok i) : acceptWord w s = exec i (takeCommand s) := by
  simp only [acceptWord, hd]

/-- An illegal word raises its code (R222). -/
theorem acceptWord_illegal {code : ProtocolCode} (hd : decodeCmd w = .error code) (he : s.err = false) :
    acceptWord w s = .next (raiseProtocolError code (takeCommand s)) := by
  simp [acceptWord, hd, rejectWord, he]

/-- At IDLE with no script a word with a reserved field set raises code 2 and does nothing else (R75, R222). -/
theorem step_of_reservedField (hh : s.host = []) (hq : s.seq = .idle) (hc : s.cmd = some w) (he : s.err = false)
    (hd : decodeCmd w = .error .reservedField) :
    step s = .next { s with
      cmd := none, err := true, ecode := 2#4, faultLog := s.faultLog ++ [.protocolError .reservedField] } :=
  (step_of_command hh hq hc).trans (acceptWord_illegal hd he)

end

/-- Settles O25: the lock, then the decoder, then the phase, then the instruction. -/
theorem commandAcceptance : Obligations.CommandAcceptance := by
  intro s w hh hq hc
  rw [step_of_command hh hq hc]
  exact ⟨fun he hd => acceptWord_locked he hd,
    fun he code hd => acceptWord_illegal hd he,
    fun he hn d hd => (acceptWord_ok hd).trans (exec_absorb_done (s := takeCommand s) he d hn),
    fun he hn hd => (acceptWord_ok hd).trans (exec_finalize_done (s := takeCommand s) he hn),
    fun hd => acceptWord_ok hd,
    fun _ _ _ hd => acceptWord_ok hd⟩

/-- The word of ABSORB as a sum (R73). -/
theorem encode_absorb (d : Byte) : encode (.absorb d) = .cmd32 (0x20000000#32 + d.setWidth 32) := by
  have hd : d.toNat < 2 ^ 8 := d.isLt
  refine congrArg Encoded.cmd32 (BitVec.eq_of_toNat_eq ?_)
  rw [encodeCmd_toNat, BitVec.toNat_add, BitVec.toNat_setWidth, BitVec.toNat_ofNat, BitVec.toNat_ofNat]
  omega

/-- An ABSORB word with RSVD not 0 is reserved (R75). -/
theorem decodeCmd_absorb_reserved {w : CommandWord} (ho : w.toNat / 2 ^ 28 = 2) (hr : w.toNat / 2 ^ 8 % 2 ^ 20 ≠ 0) :
    decodeCmd w = .error .reservedField := by
  rw [decodeCmd_opc2 (cmdOpc_eq_iff.2 ho), if_neg (mt cmdRsvd_eq_zero_iff.1 hr)]

/-- Of the words with FINALIZE's opcode every one but FINALIZE's own is reserved (R75). -/
theorem decodeCmd_finalize_reserved {w : CommandWord} (ho : w.toNat / 2 ^ 28 = 3) (hw : w ≠ 0x30000000#32) :
    decodeCmd w = .error .reservedField := by
  have hopc : cmdOpc w = 3#4 := cmdOpc_eq_iff.2 ho
  rw [decodeCmd_opc3 hopc, if_neg]
  rintro ⟨hz, hd⟩
  rw [← encodeCmd_fields hz, hopc, hd] at hw
  exact hw rfl

/-- Settles O22: ABSORB's action when the flags allow it, with the 64th byte as a case, and its two errors. -/
theorem absorbAppendsAByte : Obligations.AbsorbAppendsAByte := by
  refine ⟨fun d s he hn => ?_, fun d s he hn => exec_absorb_done he d hn,
    fun w s hh hq hc he ho hr => step_of_reservedField hh hq hc he (decodeCmd_absorb_reserved ho hr), encode_absorb⟩
  by_cases hb : s.bufcnt = 63#6
  · exact ⟨_, exec_absorb_full he d hn hb, Memory.read_write s.buf _ d, rfl, fun _ => ⟨rfl, rfl, rfl⟩,
      fun hne => absurd hb hne, rfl⟩
  · have hcnt : (s.bufcnt + 1#6).toNat = s.bufcnt.toNat + 1 := by bv_omega
    exact ⟨_, exec_absorb_open he d hn hb, Memory.read_write s.buf _ d, rfl, fun heq => absurd heq hb,
      fun _ => ⟨hcnt, rfl, rfl⟩, rfl⟩

/-- Settles O24: the phase error and the reserved words of FINALIZE's opcode. -/
theorem finalizeIsRefusedByPhase : Obligations.FinalizeIsRefusedByPhase :=
  ⟨fun _ he hn => exec_finalize_done he hn,
    fun _ _ hh hq hc he ho hw => step_of_reservedField hh hq hc he (decodeCmd_finalize_reserved ho hw)⟩

/-! ## The step and the instruction at hand -/

/-- Settles O29: a command word runs off CMD, and a microword runs before seq advances. -/
theorem stepRunsTheDecodedInstr : Obligations.StepRunsTheDecodedInstr := by
  refine ⟨fun s w i hh hq hc hd => ?_, fun s j i hh hq hd => ?_⟩
  · rw [step_of_command hh hq hc, acceptWord_ok (toOption_eq_some_iff.1 hd)]
    rfl
  · have hu : decodeUw (fetchMicroword s j) = .ok i := toOption_eq_some_iff.1 hd
    rw [step_of_no_script hh, coreTransition, hq]
    simp only [stepTransition, hu, seqAfterStep]

/-- Settles O36: at IDLE with nothing on CMD the core's transition is the state itself. -/
theorem idleCoreKeepsItsState : Obligations.IdleCoreKeepsItsState := by
  intro s hh hq hc
  rw [step_of_no_script hh, coreTransition, hq]
  simp only [hc]

/-! ## The host's script -/

/-- With nothing on CMD the host presents the script's next word, and nothing else changes (R220 a). -/
theorem step_present {s : State} {w : CommandWord} {l : List HostMove} (hh : s.host = .present w :: l) (hc : s.cmd = none) :
    step s = .next { s with host := l, cmd := some w } := by
  simp only [step, machineStep, hh, hc, if_true, presentWord, dropMove, List.tail_cons]

/-- The core moves as with an empty script, and the script stays as it is. -/
theorem coreTransition_eq_step_without_script (s : State) :
    coreTransition s = andThen (step { s with host := [] }) fun t => .next { t with host := s.host } := by
  rw [step_of_no_script rfl]
  exact coreTransition_host s

/-- Settles O58: a word held or not, and the yield. -/
theorem hostPresentsOneWordAtATime : Obligations.HostPresentsOneWordAtATime := by
  refine ⟨fun s w l hh => ⟨step_present hh, fun hc => ?_⟩, fun s l hh => ?_⟩
  · rw [step_of_coreTurn (.inr ⟨w, l, hh, hc⟩)]
    exact coreTransition_eq_step_without_script s
  · have hstep : step s = coreTransition (dropMove s) := by simp only [step, machineStep, hh]
    rw [hstep, coreTransition_eq_step_without_script, dropMove_host, hh]
    rfl

/-! ## How long the core is busy -/

theorem idleAfterExactly_zero {s : State} (hq : s.seq = .idle) : IdleAfterExactly 0 s :=
  ⟨⟨s, rfl, hq⟩, fun k hk => absurd hk (Nat.not_lt_zero k)⟩

/-- One step before a state that is at IDLE after n steps, and not at IDLE itself, it takes one step more. -/
theorem IdleAfterExactly.succ_of_step {n : Nat} {s t : State} (hb : s.seq ≠ .idle) (hstep : step s = .next t)
    (ht : IdleAfterExactly n t) : IdleAfterExactly (n + 1) s := by
  obtain ⟨⟨u, hrun, hu⟩, hbefore⟩ := ht
  refine ⟨⟨u, by rw [runSteps_succ, hstep, andThen_next, hrun], hu⟩, fun k hk => ?_⟩
  cases k with
  | zero => exact ⟨s, rfl, hb⟩
  | succ k =>
    obtain ⟨v, hv, hvq⟩ := hbefore k (Nat.lt_of_succ_lt_succ hk)
    exact ⟨v, by rw [runSteps_succ, hstep, andThen_next, hv], hvq⟩

/-- FEED leaves the transitions that CONT says (R179). -/
theorem transitionsLeft_feedForward (s : State) : transitionsLeft (feedForward s) = afterBlock s.cont := by
  cases hc : s.cont <;> simp [transitionsLeft, seqAfterFeed, afterBlock, hc]

/-- After STEP(j) the block has FEED and the steps after j to go (R176). -/
theorem transitionsLeft_after_step (s : State) (v : Quad) (j : Fin 48) :
    transitionsLeft { s with v := v, seq := seqAfterStep j } = (48 - j.val) + afterBlock s.cont := by
  have hj := j.isLt
  by_cases hlast : j.val < 47
  · simp only [transitionsLeft, seqAfterStep, hlast, dite_true]
    omega
  · simp only [transitionsLeft, seqAfterStep, hlast, dite_false]
    omega

/-- From a busy state that keeps the invariant the core's transition answers a next state, one transition nearer to IDLE. -/
theorem Coherent.step_of_busy {s : State} (h : Coherent s) (hh : s.host = []) (hb : s.seq ≠ .idle) :
    ∃ t, step s = .next t ∧ transitionsLeft s = transitionsLeft t + 1 := by
  cases hq : s.seq with
  | idle => exact absurd hq hb
  | loadv =>
    refine ⟨_, step_of_loadv (.inl hh) hq, ?_⟩
    simp only [transitionsLeft, hq, loadV_seq, loadV_cont, Fin.val_zero]
    omega
  | step j =>
    obtain ⟨r, i, rfl⟩ := exists_romIndex j
    have hfull := h.blockWritten (by simp [hq, compressing])
    have hlt := (romIndex r i).isLt
    refine ⟨_, step_of_romIndex (.inl hh) h.romFixed hfull hq, ?_⟩
    rw [transitionsLeft_after_step]
    simp only [transitionsLeft, hq]
    omega
  | feed =>
    refine ⟨_, step_of_feed (.inl hh) hq, ?_⟩
    rw [transitionsLeft_feedForward]
    simp only [transitionsLeft, hq]
    omega
  | pad2 => exact ⟨_, step_of_pad2 hh hq, by simp only [transitionsLeft, hq, afterBlock]⟩
  | out => exact ⟨_, step_of_out (.inl hh) hq, by simp only [transitionsLeft, hq, serializeOut_seq]⟩

/-- With no script, a state that keeps the invariant is at IDLE after the transitions it has left, and not before. -/
theorem Coherent.idleAfterExactly {s : State} (h : Coherent s) (hh : s.host = []) :
    IdleAfterExactly (transitionsLeft s) s := by
  induction hn : transitionsLeft s generalizing s with
  | zero =>
    refine idleAfterExactly_zero (by_contra fun hb => ?_)
    obtain ⟨t, -, hleft⟩ := h.step_of_busy hh hb
    omega
  | succ n ih =>
    have hb : s.seq ≠ .idle := fun hq => by simp [transitionsLeft, hq] at hn
    obtain ⟨t, hstep, hleft⟩ := h.step_of_busy hh hb
    exact .succ_of_step hb hstep
      (ih (stepKeepsCoherent s t h hstep) ((coreMove_of_step hh hstep).host_eq.trans hh) (by omega))

/-! ## How long a command takes -/

theorem acceptUnlessDone_completes {code : ProtocolCode} {act : State → Result State} {s : State}
    (hact : ∃ t, act s = .next t) : ∃ t, acceptUnlessDone code act s = .next t := by
  unfold acceptUnlessDone
  split_ifs
  · exact ⟨_, rfl⟩
  · exact ⟨_, rfl⟩
  · exact hact

/-- The acceptance of a word always completes (R222). -/
theorem acceptWord_completes (w : CommandWord) (s : State) : ∃ t, acceptWord w s = .next t := by
  cases hd : decodeCmd w with
  | error code => exact ⟨rejectWord code (takeCommand s), by simp only [acceptWord, hd]⟩
  | ok i =>
    rw [acceptWord_ok hd]
    rcases decodeCmd_cases hd with rfl | rfl | rfl
    · exact ⟨_, rfl⟩
    · exact acceptUnlessDone_completes ⟨_, absorbByte_next _ _⟩
    · exact acceptUnlessDone_completes ⟨_, padTail_next _⟩

/-- A word that leaves an entry in the log leaves the core at IDLE (R262, R264). -/
theorem CoreMove.idle_of_logged {s t : State} (hm : CoreMove s t) (hlog : t.faultLog ≠ s.faultLog) : t.seq = .idle := by
  cases hm with
  | locked _ hq | illegal _ _ hq | absorbLate _ _ hq | finalizeLate _ hq => exact hq
  | _ => exact absurd rfl hlog

/-- Settles O51: what the accepted command leaves is at IDLE after the transitions it has left. -/
theorem acceptedCommandLength : Obligations.AcceptedCommandLength := by
  intro s w h hh hq hc
  obtain ⟨t, ht⟩ := acceptWord_completes w s
  have hstep : step s = .next t := (step_of_command hh hq hc).trans ht
  have hm := coreMove_of_step hh hstep
  have hlen : IdleAfterExactly (transitionsLeft t) t :=
    (stepKeepsCoherent s t h hstep).idleAfterExactly (hm.host_eq.trans hh)
  have htaken : ∀ i, decodeCmd w = .ok i → ∀ u, exec i (takeCommand s) = .next u → u = t := fun i hd u hu =>
    Host.Outcome.next.inj (hu.symm.trans ((acceptWord_ok hd).symm.trans ht))
  refine ⟨t, hstep, fun hd => ?_, fun he hn d hd => ?_, fun he hn hd => ?_, fun hlog => ?_⟩
  · obtain rfl := htaken _ hd _ rfl
    exact idleAfterExactly_zero rfl
  · by_cases hb : s.bufcnt = 63#6
    · obtain rfl := htaken _ hd _ (exec_absorb_full (s := takeCommand s) he d hn hb)
      rw [if_pos hb]
      exact hlen
    · obtain rfl := htaken _ hd _ (exec_absorb_open (s := takeCommand s) he d hn hb)
      rw [if_neg hb]
      exact idleAfterExactly_zero hq
  · obtain rfl := htaken _ hd _ (exec_finalize_open (s := takeCommand s) he hn)
    have hleft : 50 + afterBlock (if s.bufcnt.toNat ≤ 55 then .out else .pad2)
        = if s.bufcnt.toNat ≤ 55 then 51 else 102 := by split <;> rfl
    rw [← hleft]
    exact hlen
  · exact idleAfterExactly_zero (hm.idle_of_logged hlog)

/-! ## The bytes BUF holds from its first one on -/

/-- BUF holds bs from byte 0 on. -/
def Memory.Holds (m : Memory) (bs : List Byte) : Prop := ∀ j, j < bs.length → Memory.read m j = bs[j]?

theorem Memory.holds_nil (m : Memory) : Memory.Holds m [] := fun j hj => absurd hj (Nat.not_lt_zero j)

theorem Memory.Holds.of_append {m : Memory} {bs cs : List Byte} (h : Memory.Holds m (bs ++ cs)) : Memory.Holds m bs := by
  intro j hj
  rw [h j (by rw [List.length_append]; omega), List.getElem?_append_left hj]

/-- Bytes stored right after the held ones are held with them. -/
theorem Memory.Holds.writeBytes {m : Memory} {bs : List Byte} (h : Memory.Holds m bs) (cs : List Byte) {j : Nat}
    (hj : bs.length = j) : Memory.Holds (Memory.writeBytes m j cs) (bs ++ cs) := by
  intro i hi
  rw [List.length_append] at hi
  rw [Memory.read_writeBytes]
  by_cases hin : i < bs.length
  · rw [if_neg (by omega), List.getElem?_append_left hin, h i hin]
  · rw [if_pos (by omega), List.getElem?_append_right (by omega), hj]

section
variable {m : Memory} {b : List Byte} (h : Memory.Holds m b) (hb : b.length = 64)
include h hb

theorem Memory.Holds.written {a : Nat} (ha : a < 64) : (Memory.read m a).isSome = true := by
  rw [h a (by omega), List.getElem?_eq_getElem (by omega)]
  rfl

theorem Memory.Holds.blockBytes_eq : blockBytes m = b := by
  refine List.ext_getElem (by simp [blockBytes, hb]) fun j hj hj' => ?_
  simp [blockBytes, h j hj', hj']

end

/-- In the core's turn, fifty steps from LOADV compress the block that BUF holds (R180). -/
theorem runSteps_held_block {s : State} {b : List Byte} (hturn : CoreTurn s) (hrom : s.rom = stepRom) (hq : s.seq = .loadv)
    (hheld : Memory.Holds s.buf b) (hb : b.length = 64) :
    runSteps 50 s = .next { s with h := compress s.h b, v := threeRounds b s.h, seq := seqAfterFeed s.cont } := by
  have hrun := runSteps_block hturn hrom (fun _ => hheld.written hb) hq
  rwa [hheld.blockBytes_eq hb] at hrun

/-! ## The blocks of a message that grows -/

/-- The bytes of a message after its full blocks. -/
def openBlock (p : List Byte) : List Byte := p.drop (64 * (p.length / 64))

@[simp] theorem length_openBlock (p : List Byte) : (openBlock p).length = p.length % 64 := by
  rw [openBlock, List.length_drop]
  omega

theorem full_blocks_append_openBlock (p : List Byte) : p.take (64 * (p.length / 64)) ++ openBlock p = p :=
  List.take_append_drop _ p

/-- Bytes that complete no block do not change the fold (R181). -/
theorem foldBlocks_append_of_same_blocks (h : Quad) {p r : List Byte} (hlen : (p ++ r).length / 64 = p.length / 64) :
    foldBlocks h (p ++ r) = foldBlocks h p := by
  unfold foldBlocks
  rw [hlen]
  refine List.foldl_ext _ _ _ fun acc i hi => ?_
  rw [List.mem_range] at hi
  exact congrArg (compress acc) (blockOf_append_left (by omega))

/-- One block more after whole blocks is one compression more (R181). -/
theorem foldBlocks_append_block (h : Quad) {p b : List Byte} (hp : p.length % 64 = 0) (hb : b.length = 64) :
    foldBlocks h (p ++ b) = compress (foldBlocks h p) b := by
  have hlen : (p ++ b).length / 64 = p.length / 64 + 1 := by rw [List.length_append]; omega
  have hlast : blockOf (p ++ b) (p.length / 64) = b := by
    have hmiddle := blockOf_append_middle (p := p) (rest := []) (i := p.length / 64) (by omega) hb
    rwa [List.append_nil] at hmiddle
  unfold foldBlocks
  rw [hlen, List.range_succ, List.foldl_append, List.foldl_cons, List.foldl_nil, hlast]
  refine congrArg (compress · b) (List.foldl_ext _ _ _ fun acc i hi => ?_)
  rw [List.mem_range] at hi
  exact congrArg (compress acc) (blockOf_append_left (by omega))

/-- Bytes that complete the open block, and no other, are one compression more (R181). -/
theorem foldBlocks_append_fill (h : Quad) {p r : List Byte} (hfill : (openBlock p ++ r).length = 64) :
    foldBlocks h (p ++ r) = compress (foldBlocks h p) (openBlock p ++ r) := by
  have hfull := length_take_full_blocks p
  have hp : foldBlocks h p = foldBlocks h (p.take (64 * (p.length / 64))) := by
    conv_lhs => rw [← full_blocks_append_openBlock p]
    exact foldBlocks_append_of_same_blocks h (by rw [full_blocks_append_openBlock]; omega)
  rw [hp, ← foldBlocks_append_block h (by omega) hfill, ← List.append_assoc, full_blocks_append_openBlock]

theorem openBlock_snoc_of_open {p : List Byte} (d : Byte) (hp : p.length % 64 ≠ 63) :
    openBlock (p ++ [d]) = openBlock p ++ [d] := by
  have hq : (p.length + 1) / 64 = p.length / 64 := by omega
  rw [openBlock, List.length_append, List.length_singleton, hq, List.drop_append_of_le_length (by omega), openBlock]

theorem openBlock_snoc_of_full {p : List Byte} (d : Byte) (hp : p.length % 64 = 63) : openBlock (p ++ [d]) = [] := by
  apply List.eq_nil_of_length_eq_zero
  rw [length_openBlock, List.length_append, List.length_singleton]
  omega

theorem bitLength_succ (n : Nat) : bitLength (n + 1) = bitLength n + 8#64 := by
  rw [bitLength, bitLength, ← BitVec.ofNat_add, Nat.mul_add]

/-! ## The padding as blocks -/

theorem zeros_add (a b : Nat) : zeros (a + b) = zeros a ++ zeros b := (List.replicate_append_replicate ..).symm

/-- The bytes FINALIZE adds to a tail of at most 55 bytes (R105). -/
def shortPadding (m : List Byte) : List Byte := [0x80#8] ++ zeros (55 - m.length % 64) ++ leBytes64 (bitLength m.length)

/-- The bytes FINALIZE adds to a longer tail, before PAD2's block (R105). -/
def longPadding (m : List Byte) : List Byte := [0x80#8] ++ zeros (63 - m.length % 64)

section
variable {m : List Byte}

theorem length_openBlock_shortPadding (hr : m.length % 64 ≤ 55) : (openBlock m ++ shortPadding m).length = 64 := by
  simp only [shortPadding, List.length_append, length_openBlock, List.length_singleton, length_zeros, length_leBytes64]
  omega

theorem length_openBlock_longPadding : (openBlock m ++ longPadding m).length = 64 := by
  simp only [longPadding, List.length_append, length_openBlock, List.length_singleton, length_zeros]
  omega

/-- A message with a short tail ends with the compression of one padded block (R105). -/
theorem md4State_of_short_tail (hr : m.length % 64 ≤ 55) :
    md4State m = compress (foldBlocks iv m) (openBlock m ++ shortPadding m) := by
  have hpad : pad m = m ++ shortPadding m := by
    simp only [pad, padZeroCount_of_le hr, shortPadding, List.append_assoc]
  rw [md4State, hpad, foldBlocks_append_fill iv (length_openBlock_shortPadding hr)]

/-- A message with a long tail ends with the compression of two padded blocks (R105). -/
theorem md4State_of_long_tail (hr : 56 ≤ m.length % 64) :
    md4State m = compress (compress (foldBlocks iv m) (openBlock m ++ longPadding m))
      (zeros 56 ++ leBytes64 (bitLength m.length)) := by
  have hpad : pad m = (m ++ longPadding m) ++ (zeros 56 ++ leBytes64 (bitLength m.length)) := by
    simp only [pad, padZeroCount_of_ge hr, longPadding, zeros_add, List.append_assoc]
  have hwhole : (m ++ longPadding m).length % 64 = 0 := by
    simp only [longPadding, List.length_append, List.length_singleton, length_zeros]
    omega
  rw [md4State, hpad, foldBlocks_append_block iv hwhole rfl, foldBlocks_append_fill iv length_openBlock_longPadding]

end

section
variable {b : Memory} {m : List Byte} (h : Memory.Holds b (openBlock m))
include h

/-- The tail, the 0x80 and zeros to the end of the block, before any length is written (R106). -/
theorem Memory.Holds.marked_tail :
    Memory.Holds
      (Memory.writeBytes (Memory.writeBytes b (m.length % 64) [0x80#8]) (m.length % 64 + 1) (zeros (63 - m.length % 64)))
      (openBlock m ++ longPadding m) := by
  rw [longPadding, ← List.append_assoc]
  exact (h.writeBytes _ (length_openBlock m)).writeBytes _ (by simp)

/-- PADTAIL on a short tail (R106). -/
theorem Memory.Holds.paddedTail_short (hr : m.length % 64 ≤ 55) :
    Memory.Holds (paddedTail b (m.length % 64) (bitLength m.length)) (openBlock m ++ shortPadding m) := by
  have hzeros : zeros (63 - m.length % 64) = zeros (55 - m.length % 64) ++ zeros 8 := by
    rw [← zeros_add]
    congr 1
    omega
  have hmarked := h.marked_tail
  simp only [longPadding, hzeros, ← List.append_assoc] at hmarked
  simp only [paddedTail, hr, if_true, hzeros, shortPadding, ← List.append_assoc]
  exact hmarked.of_append.writeBytes _ (by simp; omega)

/-- PADTAIL on a long tail (R106). -/
theorem Memory.Holds.paddedTail_long (len : BitVec 64) (hr : 56 ≤ m.length % 64) :
    Memory.Holds (paddedTail b (m.length % 64) len) (openBlock m ++ longPadding m) := by
  simp only [paddedTail, show ¬m.length % 64 ≤ 55 by omega, if_false]
  exact h.marked_tail

end

/-- PAD2's block (R107). -/
theorem holds_secondPad (b : Memory) (len : BitVec 64) : Memory.Holds (secondPad b len) (zeros 56 ++ leBytes64 len) := by
  rw [secondPad]
  exact ((Memory.holds_nil b).writeBytes (zeros 56) rfl).writeBytes _ rfl

/-! ## The core between two commands of a message -/

/-- The core is at IDLE with the bytes of p absorbed since INIT or reset. -/
structure Absorbed (p : List Byte) (s : State) : Prop where
  atIdle : s.seq = .idle
  romFixed : s.rom = stepRom
  notDone : s.done = false
  noError : s.err = false
  noCode : s.ecode = 0#4
  chaining : s.h = foldBlocks iv p
  length : s.len = bitLength p.length
  count : s.bufcnt.toNat = p.length % 64
  tail : Memory.Holds s.buf (openBlock p)

/-- What is absorbed does not depend on the port CMD and the script. -/
theorem Absorbed.ports {p : List Byte} {s : State} (h : Absorbed p s) (cmd : Option CommandWord) (host : List HostMove) :
    Absorbed p { s with cmd := cmd, host := host } :=
  { h with }

/-- INIT leaves a core that has absorbed nothing (R224). -/
theorem absorbed_startMessage {s : State} (hrom : s.rom = stepRom) : Absorbed [] (startMessage s) :=
  ⟨rfl, hrom, rfl, rfl, rfl, rfl, rfl, rfl, Memory.holds_nil _⟩

section
variable {p : List Byte} {s : State} (h : Absorbed p s) (d : Byte)
include h

theorem Absorbed.bufcnt_eq_iff : s.bufcnt = 63#6 ↔ p.length % 64 = 63 := by
  rw [← h.count, ← BitVec.toNat_inj]
  rfl

/-- ABSORB's byte stands right after the open block. -/
theorem Absorbed.tail_write : Memory.Holds (Memory.write s.buf s.bufcnt.toNat d) (openBlock p ++ [d]) :=
  h.tail.writeBytes [d] (by rw [length_openBlock, h.count])

theorem Absorbed.length_succ : s.len + 8#64 = bitLength (p ++ [d]).length := by
  rw [List.length_append, List.length_singleton, bitLength_succ, h.length]

/-- One byte more in an open block (R226). -/
theorem Absorbed.snoc_open (hp : p.length % 64 ≠ 63) :
    Absorbed (p ++ [d]) { s with
      buf := Memory.write s.buf s.bufcnt.toNat d, len := s.len + 8#64, bufcnt := s.bufcnt + 1#6 } := by
  have hlen : (p ++ [d]).length = p.length + 1 := by rw [List.length_append, List.length_singleton]
  have hcnt := h.count
  exact { h with
    chaining := by rw [foldBlocks_append_of_same_blocks iv (by omega)]; exact h.chaining
    length := h.length_succ d
    count := by
      simp only [BitVec.toNat_add, BitVec.toNat_ofNat]
      omega
    tail := by rw [openBlock_snoc_of_open d hp]; exact h.tail_write d }

/-- The byte that completes a block, once the block is compressed (R226, R180). -/
theorem Absorbed.snoc_full (hp : p.length % 64 = 63) (v : Quad) :
    Absorbed (p ++ [d]) { s with
      buf := Memory.write s.buf s.bufcnt.toNat d, len := s.len + 8#64, bufcnt := 0#6, cont := .none
      h := compress s.h (openBlock p ++ [d]), v := v, seq := .idle } :=
  { h with
    atIdle := rfl
    chaining := by
      rw [foldBlocks_append_fill iv (by simp [hp])]
      exact congrArg (compress · _) h.chaining
    length := h.length_succ d
    count := by simp; omega
    tail := by rw [openBlock_snoc_of_full d hp]; exact Memory.holds_nil _ }

end

/-! ## The driver -/

/-- The host holds on CMD the first word of the script of ABSORBs of m and FINALIZE, with the others to come. -/
def Offering (m : List Byte) (s : State) : Prop := ∃ w, s.cmd = some w ∧ hashScriptAfterReset m = .present w :: s.host

theorem hashScript_eq (m : List Byte) : hashScript m = .present 0x10000000#32 :: hashScriptAfterReset m := rfl

theorem hashScriptAfterReset_nil : hashScriptAfterReset [] = [.present 0x30000000#32] := rfl

theorem hashScriptAfterReset_cons (d : Byte) (m : List Byte) :
    hashScriptAfterReset (d :: m) = .present (encodeCmd 2#4 d) :: hashScriptAfterReset m := rfl

theorem exists_hashScriptAfterReset_cons (m : List Byte) : ∃ w l, hashScriptAfterReset m = .present w :: l := by
  cases m with
  | nil => exact ⟨_, _, hashScriptAfterReset_nil⟩
  | cons d m => exact ⟨_, _, hashScriptAfterReset_cons d m⟩

theorem offering_cons_iff {d : Byte} {m : List Byte} {s : State} :
    Offering (d :: m) s ↔ s.cmd = some (encodeCmd 2#4 d) ∧ s.host = hashScriptAfterReset m := by
  simp [Offering, hashScriptAfterReset_cons, eq_comm]

theorem offering_nil_iff {s : State} : Offering [] s ↔ s.cmd = some 0x30000000#32 ∧ s.host = [] := by
  simp [Offering, hashScriptAfterReset_nil, eq_comm]

/-- What the host holds and has to come does not depend on the core. -/
theorem Offering.of_same_host {m : List Byte} {s t : State} (h : Offering m s) (hc : t.cmd = s.cmd) (hh : t.host = s.host) :
    Offering m t := by
  rwa [Offering, hc, hh]

/-- While a word is held the core moves. -/
theorem Offering.coreTurn {m : List Byte} {s : State} (h : Offering m s) : CoreTurn s := by
  cases m with
  | nil => exact .inl (offering_nil_iff.1 h).2
  | cons d m =>
    obtain ⟨hc, hh⟩ := offering_cons_iff.1 h
    obtain ⟨w, l, hl⟩ := exists_hashScriptAfterReset_cons m
    exact .inr ⟨w, l, hh.trans hl, by simp [hc]⟩

/-- With nothing on CMD the host presents the script's first word. -/
theorem step_offers {m : List Byte} {s : State} (hh : s.host = hashScriptAfterReset m) (hc : s.cmd = none) :
    ∃ w, step s = .next (presentWord w (dropMove s)) ∧ Offering m (presentWord w (dropMove s)) := by
  obtain ⟨w, l, hl⟩ := exists_hashScriptAfterReset_cons m
  refine ⟨w, ?_, w, rfl, ?_⟩
  · simp only [step, machineStep, hh, hl, hc, if_true]
  · rw [presentWord_host, dropMove_host, hh, hl]
    rfl

/-- In the core's turn at IDLE the command on CMD runs once it is taken (R222). -/
theorem step_of_offered {i : Instr} {w : CommandWord} {s : State} (hturn : CoreTurn s) (hq : s.seq = .idle)
    (hc : s.cmd = some w) (hi : encode i = .cmd32 w) : step s = exec i (takeCommand s) := by
  rw [step_of_coreTurn hturn, coreTransition, hq]
  simp only [hc]
  exact acceptWord_ok (decodeCmd_eq_ok_iff.2 hi)

/-- From the command on CMD: the acceptance, and the host's next word if it has one left. -/
theorem runSteps_absorb_open {p m : List Byte} {d : Byte} {s : State} (h : Absorbed p s) (ho : Offering (d :: m) s)
    (hp : p.length % 64 ≠ 63) :
    ∃ t, runSteps 2 s = .next t ∧ Absorbed (p ++ [d]) t ∧ Offering m t ∧ t.faultLog = s.faultLog := by
  obtain ⟨hc, hh⟩ := offering_cons_iff.1 ho
  have haccept := (step_of_offered ho.coreTurn h.atIdle hc rfl).trans
    (exec_absorb_open (s := takeCommand s) h.noError d h.notDone (mt h.bufcnt_eq_iff.1 hp))
  obtain ⟨w, hpresent, hoff⟩ := step_offers (m := m) (s := { takeCommand s with
    buf := Memory.write s.buf s.bufcnt.toNat d, len := s.len + 8#64, bufcnt := s.bufcnt + 1#6 }) hh rfl
  exact ⟨_, runSteps_trans (runSteps_one haccept) (runSteps_one hpresent), (h.snoc_open d hp).ports (some w) s.host.tail,
    hoff, rfl⟩

/-- The byte that completes a block: the acceptance, the host's next word, and the block. -/
theorem runSteps_absorb_full {p m : List Byte} {d : Byte} {s : State} (h : Absorbed p s) (ho : Offering (d :: m) s)
    (hp : p.length % 64 = 63) :
    ∃ t, runSteps 52 s = .next t ∧ Absorbed (p ++ [d]) t ∧ Offering m t ∧ t.faultLog = s.faultLog := by
  obtain ⟨hc, hh⟩ := offering_cons_iff.1 ho
  have haccept := (step_of_offered ho.coreTurn h.atIdle hc rfl).trans
    (exec_absorb_full (s := takeCommand s) h.noError d h.notDone (h.bufcnt_eq_iff.2 hp))
  obtain ⟨w, hpresent, hoff⟩ := step_offers (m := m) (s := { takeCommand s with
    buf := Memory.write s.buf s.bufcnt.toNat d, len := s.len + 8#64, bufcnt := 0#6, cont := .none, seq := .loadv }) hh rfl
  have hblock := runSteps_held_block hoff.coreTurn h.romFixed rfl (h.tail_write d) (by simp [hp])
  exact ⟨_, runSteps_trans (runSteps_trans (runSteps_one haccept) (runSteps_one hpresent)) hblock,
    (h.snoc_full d hp _).ports (some w) s.host.tail, hoff.of_same_host rfl rfl, rfl⟩

/-- A byte's ABSORB takes a number of steps that only the bytes before it decide. -/
theorem runSteps_absorb_byte (p m : List Byte) (d : Byte) :
    ∃ n, ∀ s, Absorbed p s → Offering (d :: m) s →
      ∃ t, runSteps n s = .next t ∧ Absorbed (p ++ [d]) t ∧ Offering m t ∧ t.faultLog = s.faultLog := by
  by_cases hp : p.length % 64 = 63
  · exact ⟨52, fun s h ho => runSteps_absorb_full h ho hp⟩
  · exact ⟨2, fun s h ho => runSteps_absorb_open h ho hp⟩

/-- The ABSORBs of a message take a number of steps that only the bytes decide, and leave FINALIZE on CMD. -/
theorem runSteps_absorb_all (m p : List Byte) :
    ∃ n, ∀ s, Absorbed p s → Offering m s →
      ∃ t, runSteps n s = .next t ∧ Absorbed (p ++ m) t ∧ Offering [] t ∧ t.faultLog = s.faultLog := by
  induction m generalizing p with
  | nil => exact ⟨0, fun s h ho => ⟨s, rfl, by rwa [List.append_nil], ho, rfl⟩⟩
  | cons d m ih =>
    obtain ⟨k, hfirst⟩ := runSteps_absorb_byte p m d
    obtain ⟨n, hrest⟩ := ih (p ++ [d])
    refine ⟨k + n, fun s h ho => ?_⟩
    obtain ⟨t, hrun, ht, hot, hlog⟩ := hfirst s h ho
    obtain ⟨u, hrun', hu, hou, hlog'⟩ := hrest t ht hot
    rw [List.append_assoc] at hu
    exact ⟨u, runSteps_trans hrun hrun', hu, hou, hlog'.trans hlog⟩

/-- The core is at OUT with the message's last chaining state in H and v in V, and the script is done. -/
structure DigestReady (m : List Byte) (v : Quad) (s : State) : Prop where
  atOut : s.seq = .out
  noCommand : s.cmd = none
  scriptDone : s.host = []
  noError : s.err = false
  noCode : s.ecode = 0#4
  chaining : s.h = md4State m
  working : s.v = v
  length : s.len = bitLength m.length

/-- The state an accepted FINALIZE leaves: PADTAIL's block at LOADV, with CMD free (R106, R228). -/
def finalizing (s : State) : State :=
  { takeCommand s with
    buf := paddedTail s.buf s.bufcnt.toNat s.len
    cont := if s.bufcnt.toNat ≤ 55 then .out else .pad2, bufcnt := 0#6, seq := .loadv }

/-- From FINALIZE on CMD: the acceptance and the block that PADTAIL leaves (R228). -/
theorem runSteps_finalize_block {m b : List Byte} {s : State} (h : Absorbed m s) (ho : Offering [] s)
    (hheld : Memory.Holds (paddedTail s.buf s.bufcnt.toNat s.len) b) (hb : b.length = 64) :
    runSteps 51 s = .next { finalizing s with
      h := compress s.h b, v := threeRounds b s.h, seq := seqAfterFeed (finalizing s).cont } := by
  obtain ⟨hc, hh⟩ := offering_nil_iff.1 ho
  have haccept : step s = .next (finalizing s) := (step_of_offered ho.coreTurn h.atIdle hc encode_finalize).trans
    (exec_finalize_open (s := takeCommand s) h.noError h.notDone)
  exact runSteps_trans (runSteps_one haccept) (runSteps_held_block (s := finalizing s) (.inl hh) h.romFixed rfl hheld hb)

/-- From PAD2: its block and the way to OUT (R107). -/
theorem runSteps_pad2_block {s : State} (hh : s.host = []) (hrom : s.rom = stepRom) (hq : s.seq = .pad2) :
    runSteps 51 s = .next { s with
      buf := secondPad s.buf s.len, cont := .out
      h := compress s.h (zeros 56 ++ leBytes64 s.len), v := threeRounds (zeros 56 ++ leBytes64 s.len) s.h, seq := .out } :=
  runSteps_trans (runSteps_one (step_of_pad2 hh hq))
    (runSteps_held_block (s := { s with buf := secondPad s.buf s.len, cont := .out, seq := .loadv }) (.inl hh) hrom rfl
      (holds_secondPad s.buf s.len) rfl)

/-- FINALIZE on a short tail: one block (R228). -/
theorem runSteps_finalize_short {m : List Byte} {s : State} (h : Absorbed m s) (ho : Offering [] s) (hr : m.length % 64 ≤ 55) :
    ∃ u, runSteps 51 s = .next u
      ∧ DigestReady m (threeRounds (openBlock m ++ shortPadding m) (foldBlocks iv m)) u ∧ u.faultLog = s.faultLog := by
  have hheld : Memory.Holds (paddedTail s.buf s.bufcnt.toNat s.len) (openBlock m ++ shortPadding m) := by
    rw [h.count, h.length]
    exact h.tail.paddedTail_short hr
  have hcont : (finalizing s).cont = .out := if_pos (by rw [h.count]; exact hr)
  refine ⟨_, runSteps_finalize_block h ho hheld (length_openBlock_shortPadding hr), ?_, rfl⟩
  exact {
    atOut := congrArg seqAfterFeed hcont
    noCommand := rfl, scriptDone := (offering_nil_iff.1 ho).2, noError := h.noError, noCode := h.noCode, length := h.length
    chaining := (congrArg (compress · _) h.chaining).trans (md4State_of_short_tail hr).symm
    working := congrArg (threeRounds _) h.chaining }

/-- FINALIZE on a long tail: a block, PAD2 and a second block (R228). -/
theorem runSteps_finalize_long {m : List Byte} {s : State} (h : Absorbed m s) (ho : Offering [] s) (hr : 56 ≤ m.length % 64) :
    ∃ u, runSteps 102 s = .next u
      ∧ DigestReady m (threeRounds (zeros 56 ++ leBytes64 (bitLength m.length))
          (compress (foldBlocks iv m) (openBlock m ++ longPadding m))) u ∧ u.faultLog = s.faultLog := by
  have hheld : Memory.Holds (paddedTail s.buf s.bufcnt.toNat s.len) (openBlock m ++ longPadding m) := by
    rw [h.count]
    exact h.tail.paddedTail_long s.len hr
  have hcont : (finalizing s).cont = .pad2 := if_neg (by rw [h.count]; omega)
  have hhost : s.host = [] := (offering_nil_iff.1 ho).2
  have hfirst := runSteps_finalize_block h ho hheld length_openBlock_longPadding
  refine ⟨_, runSteps_trans hfirst (runSteps_pad2_block hhost h.romFixed (congrArg seqAfterFeed hcont)), ?_, rfl⟩
  rw [← h.chaining, ← h.length]
  exact {
    atOut := rfl, noCommand := rfl, scriptDone := hhost, noError := h.noError, noCode := h.noCode, length := h.length
    chaining := by rw [md4State_of_long_tail hr, ← h.chaining, ← h.length]; rfl
    working := rfl }

/-- FINALIZE comes to OUT after a number of steps, and with a V, that only the message decides. -/
theorem runSteps_finalize (m : List Byte) :
    ∃ n v, ∀ s, Absorbed m s → Offering [] s →
      ∃ u, runSteps n s = .next u ∧ DigestReady m v u ∧ u.faultLog = s.faultLog := by
  rcases Nat.lt_or_ge (m.length % 64) 56 with hr | hr
  · exact ⟨51, _, fun s h ho => runSteps_finalize_short h ho (Nat.le_of_lt_succ hr)⟩
  · exact ⟨102, _, fun s h ho => runSteps_finalize_long h ho hr⟩

/-- After the ABSORBs and FINALIZE of a message the core comes to OUT after a number of steps, and with a V, that only the
message decides. -/
theorem runSteps_hashScriptAfterReset (m : List Byte) :
    ∃ n v, ∀ s, Absorbed [] s → s.cmd = none → s.host = hashScriptAfterReset m →
      ∃ u, runSteps n s = .next u ∧ DigestReady m v u ∧ u.faultLog = s.faultLog := by
  obtain ⟨k, habsorb⟩ := runSteps_absorb_all m []
  obtain ⟨n, v, hfinalize⟩ := runSteps_finalize m
  refine ⟨1 + k + n, v, fun s h hc hh => ?_⟩
  obtain ⟨w, hpresent, hoff⟩ := step_offers hh hc
  obtain ⟨t, hrun, ht, hot, hlog⟩ := habsorb _ (h.ports (some w) s.host.tail) hoff
  obtain ⟨u, hrun', hu, hlog'⟩ := hfinalize t ht hot
  exact ⟨u, runSteps_trans (runSteps_trans (runSteps_one hpresent) hrun) hrun', hu, hlog'.trans hlog⟩

/-- The driver of R241 from any state at IDLE: INIT makes the state one that has absorbed nothing, whatever it was. -/
theorem runSteps_hashScript (m : List Byte) :
    ∃ n v, ∀ s, s.seq = .idle → s.cmd = none → s.rom = stepRom → s.host = hashScript m →
      ∃ u, runSteps n s = .next u ∧ DigestReady m v u ∧ u.faultLog = s.faultLog := by
  obtain ⟨n, v, hrest⟩ := runSteps_hashScriptAfterReset m
  refine ⟨1 + 1 + n, v, fun s hq hc hrom hh => ?_⟩
  have hpresent := step_present (hh.trans (hashScript_eq m)) hc
  obtain ⟨w, l, hl⟩ := exists_hashScriptAfterReset_cons m
  have hinit := step_of_offered (i := .init) (s := { s with host := hashScriptAfterReset m, cmd := some 0x10000000#32 })
    (.inr ⟨w, l, hl, nofun⟩) hq rfl encode_init
  obtain ⟨u, hrun, hu, hlog⟩ := hrest (startMessage { s with host := hashScriptAfterReset m, cmd := none })
    (absorbed_startMessage hrom) rfl rfl
  exact ⟨u, runSteps_trans (runSteps_trans (runSteps_one hpresent) (runSteps_one hinit)) hrun, hu, hlog⟩

/-- OUT ends the message (R202). -/
theorem DigestReady.step_eq {m : List Byte} {v : Quad} {u : State} (h : DigestReady m v u) : step u = .next (serializeOut u) :=
  step_of_out (.inl h.scriptDone) h.atOut

theorem DigestReady.digest_eq {m : List Byte} {v : Quad} {u : State} (h : DigestReady m v u) :
    (serializeOut u).digest = some (digestOf (md4State m)) := by
  rw [serializeOut_digest, h.chaining]

theorem DigestReady.statusWord_eq {m : List Byte} {v : Quad} {u : State} (h : DigestReady m v u) :
    statusWord (serializeOut u) = 2#32 := by
  simp only [statusWord, busy, cmdReady, serializeOut_seq, serializeOut_done, serializeOut_err, serializeOut_ecode, h.noError,
    h.noCode]
  decide

/-- Settles O55: the driver's run to OUT, and OUT's transition. -/
theorem commandSequenceComputesMd4 : Obligations.CommandSequenceComputesMd4 := by
  intro m s hq hc hrom hh
  obtain ⟨n, v, hrun⟩ := runSteps_hashScript m
  obtain ⟨u, hu, hr, hlog⟩ := hrun s hq hc hrom hh
  have hlen : u.len.toNat = 8 * m.length % 2 ^ 64 := by rw [hr.length, bitLength, BitVec.toNat_ofNat]
  exact ⟨n, u, serializeOut u, hu, by rw [hr.atOut]; nofun, hr.scriptDone, hr.noCommand, hr.step_eq, rfl, rfl, hr.noError,
    hr.noCode, by rw [hr.digest_eq]; rfl, hlen, hr.chaining, hlog⟩

/-- Settles O57: the driver's run ends after as many steps, and with the same V, whatever the state it starts from. -/
theorem noCarryOverBetweenMessages : Obligations.NoCarryOverBetweenMessages := by
  intro m s₁ s₂ hq₁ hc₁ hrom₁ hh₁ hq₂ hc₂ hrom₂ hh₂
  obtain ⟨n, v, hrun⟩ := runSteps_hashScript m
  obtain ⟨u₁, hu₁, hr₁, -⟩ := hrun s₁ hq₁ hc₁ hrom₁ hh₁
  obtain ⟨u₂, hu₂, hr₂, -⟩ := hrun s₂ hq₂ hc₂ hrom₂ hh₂
  exact ⟨n + 1, serializeOut u₁, serializeOut u₂,
    runSteps_trans hu₁ (runSteps_one hr₁.step_eq), runSteps_trans hu₂ (runSteps_one hr₂.step_eq),
    ⟨rfl, hr₁.noCommand, hr₁.scriptDone⟩, ⟨rfl, hr₂.noCommand, hr₂.scriptDone⟩,
    hr₁.digest_eq.trans hr₂.digest_eq.symm, rfl, hr₁.chaining.trans hr₂.chaining.symm,
    hr₁.working.trans hr₂.working.symm, hr₁.length.trans hr₂.length.symm, hr₁.statusWord_eq.trans hr₂.statusWord_eq.symm⟩

end Sys2Proof.Machine

/-! PROOFS of the family 60_exceptions: which error a word raises, what an error changes, and that a state which keeps the invariant
stops only on the host's early read of DIGEST. -/

namespace Sys2Proof.Machine

/-! ## No part of the computation stops -/

/-- With no script a state that keeps the invariant has a next state: a busy core goes on, and at IDLE a word is accepted or
nothing happens (R222, R246, R260). -/
theorem Coherent.step_completes {s : State} (h : Coherent s) (hh : s.host = []) : ∃ t, step s = .next t := by
  by_cases hq : s.seq = .idle
  · cases hc : s.cmd with
    | none => exact ⟨s, idleCoreKeepsItsState s hh hq hc⟩
    | some w =>
      rw [step_of_command hh hq hc]
      exact acceptWord_completes w s
  · obtain ⟨t, ht, -⟩ := h.step_of_busy hh hq
    exact ⟨t, ht⟩

/-- The core, which does not look at the script, never stops where the invariant holds (R221, R260). -/
theorem Coherent.coreTransition_completes {s : State} (h : Coherent s) : ∃ t, coreTransition s = .next t := by
  obtain ⟨t, ht⟩ := (h.ports s.cmd s.faultLog [] s.reads).step_completes rfl
  exact ⟨{ t with host := s.host }, by rw [coreTransition_eq_step_without_script, ht, andThen_next]⟩

/-- A yield gives the core its transition (R220). -/
theorem step_of_yield {s : State} {l : List HostMove} (hh : s.host = .yield :: l) : step s = coreTransition (dropMove s) := by
  simp only [step, machineStep, hh]

/-- Reset may be asserted in any state (R280). -/
theorem step_of_assertReset {s : State} {l : List HostMove} (hh : s.host = .assertReset :: l) :
    step s = .next (applyReset (dropMove s)) := by
  simp only [step, machineStep, hh]

/-- A read of DIGEST is answered by what DONE and DIGEST hold, once it is off the script. -/
theorem step_of_readDigest {s : State} {i : Fin 16} {l : List HostMove} (hh : s.host = .readDigest i :: l) :
    step s = readDigest i (dropMove s) := by
  simp only [step, machineStep, hh]

/-- A read of DIGEST before DONE is a fault (R287). -/
theorem readDigest_of_not_done {s : State} (i : Fin 16) (hn : s.done = false) :
    readDigest i s = .fault .digestReadWhileNotDone := by
  simp [readDigest, hn]

/-- A read of DIGEST after DONE returns a byte of the serialized H, where the invariant holds (R39, R220 c). -/
theorem Coherent.readDigest_of_done {s : State} (h : Coherent s) (i : Fin 16) (hn : s.done = true) :
    readDigest i s = .next { s with reads := s.reads ++ [.digest i (digestOf s.h)[i]] } := by
  have hd : s.digest = some (digestOf s.h) := by rw [h.digestValue, if_pos hn]
  simp only [readDigest, hn, hd]

/-- Settles O49: the core never stops, and of the host's moves only the early read of DIGEST does. -/
theorem coherentStatesNeverStop : Obligations.CoherentStatesNeverStop := by
  intro s h
  have hdrop : Coherent (dropMove s) := h.ports s.cmd s.faultLog s.host.tail s.reads
  cases hh : s.host with
  | nil =>
    rw [step_of_no_script hh]
    exact .inl h.coreTransition_completes
  | cons mv l =>
    cases mv with
    | present w =>
      by_cases hc : s.cmd = none
      · exact .inl ⟨_, step_present hh hc⟩
      · rw [step_of_coreTurn (.inr ⟨w, l, hh, hc⟩)]
        exact .inl h.coreTransition_completes
    | readStatus => exact .inl ⟨_, step_readStatus hh⟩
    | readDigest i =>
      rw [step_of_readDigest hh]
      cases hn : s.done with
      | false => exact .inr ⟨readDigest_of_not_done i hn, rfl, i, l, rfl⟩
      | true => exact .inl ⟨_, hdrop.readDigest_of_done i hn⟩
    | assertReset => exact .inl ⟨_, step_of_assertReset hh⟩
    | yield =>
      rw [step_of_yield hh]
      exact .inl hdrop.coreTransition_completes

/-! ## The order of the checks -/

/-- Settles O26: the lock goes first, and a word's two codes are the decoder's. -/
theorem errorPriority : Obligations.ErrorPriority := by
  intro s w hh hq hc
  obtain ⟨hinit, -, -, hopcode, hreserved, -⟩ := commandPatternsAreExact.1 w
  obtain ⟨hlocked, hillegal, -⟩ := commandAcceptance s w hh hq hc
  exact ⟨fun he hw => hlocked he (mt hinit.1 hw),
    fun he h1 h2 h3 => hillegal he .illegalOpcode (hopcode.2 ⟨h1, h2, h3⟩),
    fun he ho hf => hillegal he .reservedField (hreserved.2 ⟨ho, hf⟩)⟩

/-! ## What an error changes -/

/-- A core's move logs nothing and sets no ERR, or it refuses a word under the lock, or with the lock open it takes a word at IDLE
and raises an error (R262, R264). -/
theorem CoreMove.error_cases {s t : State} (h : CoreMove s t) :
    (t.faultLog = s.faultLog ∧ (t.err = true → s.err = true))
    ∨ (s.err = true ∧ t = refuseCommand (takeCommand s))
    ∨ (s.err = false ∧ s.seq = .idle ∧ ∃ w code, s.cmd = some w ∧ t = raiseProtocolError code (takeCommand s)) := by
  cases h with
  | locked _ _ _ _ he => exact .inr (.inl ⟨he, rfl⟩)
  | illegal w code hq hc _ he => exact .inr (.inr ⟨he, hq, w, code, hc, rfl⟩)
  | absorbLate w _ hq hc _ he => exact .inr (.inr ⟨he, hq, w, _, hc, rfl⟩)
  | finalizeLate w hq hc _ he => exact .inr (.inr ⟨he, hq, w, _, hc, rfl⟩)
  | init => exact .inl ⟨rfl, fun he => Bool.noConfusion he⟩
  | _ => exact .inl ⟨rfl, id⟩

/-- Whoever moves, the log stays or gains one entry: a refusal under the lock, an error with the lock open (R262, R264, R280). -/
theorem step_faultLog_cases {s t : State} (h : step s = .next t) :
    t.faultLog = s.faultLog
    ∨ (s.err = true ∧ t.faultLog = s.faultLog ++ [.refused])
    ∨ (s.err = false ∧ ∃ code, t.faultLog = s.faultLog ++ [.protocolError code]) := by
  rcases (step_move h).agent with ⟨l, hm⟩ | ⟨rfl, -⟩ | ⟨hs, -⟩
  · rcases hm.error_cases with ⟨hlog, -⟩ | ⟨he, rfl⟩ | ⟨he, -, w, code, -, rfl⟩
    · exact .inl hlog
    · exact .inr (.inl ⟨he, rfl⟩)
    · exact .inr (.inr ⟨he, code, rfl⟩)
  · exact .inl rfl
  · exact .inl (by rw [hs])

/-- Settles O27: the core's move that sets ERR is the one that raises an error, and every step's log extends the log before it. -/
theorem protocolErrorsArePrecise : Obligations.ProtocolErrorsArePrecise := by
  refine ⟨fun s t hh h he ht => ?_, fun s t code h hlog => ?_, fun s t h => ?_⟩
  · rcases (coreMove_of_step hh h).error_cases with ⟨-, hset⟩ | ⟨hlock, -⟩ | ⟨-, hq, w, code, hc, rfl⟩
    · exact absurd (hset ht) (by simp [he])
    · simp [he] at hlock
    · exact ⟨hq, w, code, hc, rfl⟩
  · rcases step_faultLog_cases h with hsame | ⟨-, hrefused⟩ | ⟨he, -⟩
    · simp [hsame] at hlog
    · simp [hrefused] at hlog
    · exact he
  · rcases step_faultLog_cases h with hlog | ⟨-, hlog⟩ | ⟨-, code, hlog⟩
    · rw [hlog]
    · exact hlog ▸ List.prefix_append _ _
    · exact hlog ▸ List.prefix_append _ _

end Sys2Proof.Machine

/-! PROOFS of the family 70_reset_and_hazards: reset at any time and the message that may follow it without INIT, the bound on a busy
period, and the host's reads of DIGEST. -/

namespace Sys2Proof.Machine

/-! ## A message from reset on -/

/-- Reset leaves a core that has absorbed nothing, as INIT does (R280, R282). -/
theorem absorbed_applyReset {s : State} (hrom : s.rom = stepRom) : Absorbed [] (applyReset s) :=
  ⟨rfl, hrom, rfl, rfl, rfl, rfl, rfl, rfl, Memory.holds_nil _⟩

/-- A core that has absorbed nothing, given the ABSORBs of a message and FINALIZE, comes to OUT, and OUT's transition is its last. -/
theorem Absorbed.runSteps_message {m : List Byte} {s : State} (h : Absorbed [] s) (hc : s.cmd = none)
    (hh : s.host = hashScriptAfterReset m) :
    ∃ n v u, runSteps n s = .next (serializeOut u) ∧ DigestReady m v u ∧ u.faultLog = s.faultLog := by
  obtain ⟨n, v, hrun⟩ := runSteps_hashScriptAfterReset m
  obtain ⟨u, hu, hr, hlog⟩ := hrun s h hc hh
  exact ⟨n + 1, v, u, runSteps_trans hu (runSteps_one hr.step_eq), hr, hlog⟩

section
variable {m : List Byte} {v : Quad} {u : State} (h : DigestReady m v u)
include h

theorem DigestReady.atEnd : AtEnd (serializeOut u) := ⟨rfl, h.noCommand, h.scriptDone⟩

theorem DigestReady.digest_toList : (serializeOut u).digest.map Vector.toList = some (md4Digest m) := by
  rw [h.digest_eq]
  rfl

theorem DigestReady.length_toNat : u.len.toNat = 8 * m.length % 2 ^ 64 := by
  rw [h.length, bitLength, BitVec.toNat_ofNat]

end

/-- Settles O56: INIT writes reset's values, and reset, at power-on or asserted by the host, leaves a core that has absorbed
nothing. -/
theorem sequenceAfterResetComputesMd4 : Obligations.SequenceAfterResetComputesMd4 := by
  refine ⟨fun s => rfl, fun m => ?_, fun m s hc hrom hh => ?_⟩
  · have habsorbed : Absorbed [] { State.reset with host := hashScriptAfterReset m } :=
      (absorbed_applyReset (s := State.reset) rfl).ports none (hashScriptAfterReset m)
    obtain ⟨n, v, u, hrun, hr, hlog⟩ := habsorbed.runSteps_message rfl rfl
    exact ⟨n, serializeOut u, hrun, hr.atEnd, hlog, rfl, hr.noError, hr.digest_toList⟩
  · have hscript : (applyReset (dropMove s)).host = hashScriptAfterReset m := congrArg List.tail hh
    obtain ⟨n, v, u, hrun, hr, hlog⟩ := (absorbed_applyReset (s := dropMove s) hrom).runSteps_message hc hscript
    exact ⟨1 + n, serializeOut u, runSteps_trans (runSteps_one (step_of_assertReset hh)) hrun, hr.atEnd, hlog, rfl, hr.noError,
      hr.noCode, hr.digest_toList, hr.length_toNat, hr.chaining⟩

/-! ## The length of a busy period -/

/-- After a block at most PAD2, its block and OUT follow (R228). -/
theorem afterBlock_le (c : Cont) : afterBlock c ≤ 52 := by cases c <;> decide

/-- A busy period is longest from LOADV with PAD2 to come: two blocks, PAD2 and OUT (R290). -/
theorem transitionsLeft_le (s : State) : transitionsLeft s ≤ 102 := by
  have hafter := afterBlock_le s.cont
  unfold transitionsLeft
  split <;> omega

/-- Settles O52: the bound, and the core's steps counted down to IDLE. -/
theorem busyPeriodsEnd : Obligations.BusyPeriodsEnd := fun s h hh => ⟨transitionsLeft_le s, h.idleAfterExactly hh⟩

/-! ## The host's reads of DIGEST, and its reset -/

/-- Settles O44: the read answers by DONE, once the move is off the script. -/
theorem digestReads : Obligations.DigestReads := by
  refine ⟨fun s i _ hh hn => ?_, fun s i _ h hh hn => ?_⟩
  · exact (step_of_readDigest hh).trans (readDigest_of_not_done (s := dropMove s) i hn)
  · have hdrop : Coherent (dropMove s) := h.ports s.cmd s.faultLog s.host.tail s.reads
    rw [step_of_readDigest hh, hdrop.readDigest_of_done i hn, dropMove, hh]
    rfl

/-- Settles O45: the state is `applyReset` of the rest, field by field. -/
theorem resetMoveResets : Obligations.ResetMoveResets := fun s _ hh =>
  ⟨applyReset (dropMove s), step_of_assertReset hh, rfl, rfl, rfl, rfl, rfl, rfl, rfl, rfl, fun _ => rfl, rfl, rfl, rfl,
    congrArg List.tail hh, rfl, rfl⟩

end Sys2Proof.Machine

/-! PROOFS of the remaining family: where a step stops, at the read of its block word or at its rotate. -/

namespace Sys2Proof.Machine

/-! ## The block word a step reads -/

/-- X[k] is inside BUF for every k (R27). -/
theorem blockWord_inside (k : BitVec 4) : 4 * k.toNat + 4 ≤ 64 := by
  have hk := k.isLt
  omega

/-- A byte of X[k] without a value makes the read of X[k] a fault (I6). -/
theorem blockWord_fault {m : Memory} {k : BitVec 4} {i : Nat} (hi : i < 4) (hnone : Memory.read m (4 * k.toNat + i) = none) :
    blockWord m k = .fault .bufByteHoldsNoValue := by
  obtain ⟨-, hfault, -⟩ := memoryPrimitives
  rw [blockWord, hfault m _ 4 i (blockWord_inside k) hi hnone, andThen_fault]

/-- X[k] has a value where its four bytes have one. -/
theorem exists_blockWord_next {m : Memory} {k : BitVec 4} (h : ∀ i, i < 4 → (Memory.read m (4 * k.toNat + i)).isSome = true) :
    ∃ x, blockWord m k = .next x := by
  obtain ⟨hread, -⟩ := memoryPrimitives
  obtain ⟨bs, hbs, -⟩ := hread m _ 4 (blockWord_inside k) h
  exact ⟨le32OfBytes bs, by rw [blockWord, hbs, andThen_next]⟩

/-! ## Where a step stops -/

/-- X[k] is read before the sum is rotated, so its fault is the step's, whatever the rotate amount (R150 to R152). -/
theorem roundStep_fault {r : Round} {t : Slot} {k : BitVec 4} {n : BitVec 5} {s : State} {e : Fault}
    (h : blockWord s.buf k = .fault e) : roundStep r t k n s = .fault e := by
  rw [roundStep, h, andThen_fault]

/-- With X[k] read, a rotate by 0 refuses the step (R144). -/
theorem roundStep_refused {r : Round} {t : Slot} {k : BitVec 4} {s : State} {x : Word} (h : blockWord s.buf k = .next x) :
    roundStep r t k 0#5 s = .refused .rotateAmountUndefined := by
  rw [roundStep, h, andThen_next, rotl_refused _ (.inl BitVec.toNat_zero), andThen_refused]

/-- Settles O20: the read of X[k] faults first, and after it the rotator refuses the amount 0. -/
theorem stepsStopByName : Obligations.StepsStopByName := by
  refine fun r t k n s => ⟨fun i hi hnone => ?_, fun hsome hn => ?_⟩
  · rw [exec_stepInstr, roundStep_fault (blockWord_fault hi hnone)]
  · obtain ⟨x, hx⟩ := exists_blockWord_next hsome
    rw [exec_stepInstr, hn, roundStep_refused hx]

end Sys2Proof.Machine
